-- ==== Sys2Proof/Word.lean ====
section
/-! DEFINITION. The value types of the block (`00_scope.md` rules R6, R7): bytes, 32-bit words, 64-bit values, the
64-byte block, the accumulator and the working registers of the compression function. -/

namespace Sys2Proof

/-- A byte, a value in `0 .. 255` (rule R7). -/
abbrev Byte := BitVec 8

/-- A 32-bit word (`WORD_W` of rule R6); `+` on it wraps modulo 2^32 (rule R8). -/
abbrev Word := BitVec 32

/-- A value of the total-length counter (`LEN_W` of rule R6); `+` on it is the `+64` of rule R8. -/
abbrev Len := BitVec 64

/-- A command word as the port transfers it: one 64-bit value (rule R60). -/
abbrev Cmd := BitVec 64

/-- The 64 bytes of one block (`BLOCK_BYTES` and `BUF_CAP` of rule R6). -/
abbrev Block := Vector Byte 64

/-- The accumulator `H[0]`..`H[3]`, named `A, B, C, D` in that order (`ACC_WORDS` of rule R6, rule R21). -/
abbrev Acc := Vector Word 4

/-- The working registers `a, b, c, d` of the compression function (rule R22). -/
structure Quad where
  a : Word
  b : Word
  c : Word
  d : Word
deriving DecidableEq, Repr

end Sys2Proof
end

