-- ==== Sys2Proof/Machine/Operands.lean ====
section
/-! DEFINITION. The operand forms of the block: the fields of a command word (rules R60, R62), the two 32-bit halves of
the length counter (rule R30), the little-endian views of bytes and words (rules R42 to R45), and the initialization
vector (rule R34). -/

namespace Sys2Proof.Machine

/-! ### The fields of a command word -/

/-- `OP`, bits 63:56 (rule R60). -/
def opField (w : Cmd) : Byte := w.extractLsb' 56 8

/-- `RSV`, bits 55:32 (rule R60). -/
def rsvField (w : Cmd) : BitVec 24 := w.extractLsb' 32 24

/-- `ARG`, bits 31:0 (rule R60). -/
def argField (w : Cmd) : Word := w.extractLsb' 0 32

/-- The word whose fields are `OP`, `RSV` and `ARG` (rule R60; concatenation as in rule R7). -/
def packCmd (op : Byte) (rsv : BitVec 24) (arg : Word) : Cmd := op ++ rsv ++ arg

/-- `ARG[7:0]`, the byte of `APPEND` (rule R62). -/
def byteOperand (arg : Word) : Byte := arg.extractLsb' 0 8

/-- `ARG[31:8]`, which must be 0 in `APPEND` (rule R61). -/
def aboveByte (arg : Word) : BitVec 24 := arg.extractLsb' 8 24

/-- `ARG[0]`, the flag of `FINALIZE` (rule R62). -/
def rawOperand (arg : Word) : Bool := arg.getLsbD 0

/-- `ARG[31:1]`, which must be 0 in `FINALIZE` (rule R61). -/
def aboveFlag (arg : Word) : BitVec 31 := arg.extractLsb' 1 31

/-- The `ARG` of `APPEND b`. -/
def argOfByte (b : Byte) : Word := (0 : BitVec 24) ++ b

/-- The `ARG` of `FINALIZE`. -/
def argOfFlag (raw : Bool) : Word := (0 : BitVec 31) ++ BitVec.ofBool raw

/-! ### The two halves of the length counter -/

/-- `LEN_LO`, the view `L[31:0]` (rule R30). -/
def lenLo (l : Len) : Word := l.extractLsb' 0 32

/-- `LEN_HI`, the view `L[63:32]` (rule R30). -/
def lenHi (l : Len) : Word := l.extractLsb' 32 32

/-- `{L[63:32], v}` (rule R141). -/
def withLenLo (l : Len) (v : Word) : Len := lenHi l ++ v

/-- `{v, L[31:0]}` (rule R142). -/
def withLenHi (l : Len) (v : Word) : Len := v ++ lenLo l

/-! ### Little-endian views -/

/-- Byte `k` of a word, counted from the least significant: `v[8k+7:8k]` (rules R9, R44). -/
def wordByte (v : Word) (k : Nat) : Byte := v.extractLsb' (8 * k) 8

/-- `BufRead(4j, 4)`: word `j` of a block, the first byte the least significant (rules R9, R42). -/
def bufRead (blk : Block) (j : Fin 16) : Word :=
  blk[4 * j.val + 3] ++ blk[4 * j.val + 2] ++ blk[4 * j.val + 1] ++ blk[4 * j.val]

/-- `BufWrite(4j, 4, v)`: `buf[4j+k] <- v[8k+7:8k]` for `k = 0..3` (rule R9). Irreducible, like
the two below and `compress`, so that comparing two states never unfolds a block; proofs cite `Laws/Block.lean`. -/
@[irreducible] def bufWrite (blk : Block) (j : Fin 16) (v : Word) : Block :=
  Vector.ofFn fun i => if i.val / 4 = j.val then wordByte v (i.val % 4) else blk[i]

/-- `buf[n] <- b` for the 6-bit index `n` (rules R9, R40). -/
@[irreducible] def bufSet (blk : Block) (n : BitVec 6) (b : Byte) : Block := blk.set n.toNat b

/-- `buf[n] <- 0x80`, then `buf[k] <- 0x00` for every `k` in `n+1 .. 63`; the bytes below `n` stay (rule R122). -/
@[irreducible] def bufPad (blk : Block) (n : BitVec 6) : Block :=
  Vector.ofFn fun i => if i.val < n.toNat then blk[i] else if i.val = n.toNat then 0x80 else 0x00

/-- 64 zero bytes (rule R123). -/
def zeroBlock : Block := Vector.replicate 64 0x00

/-! ### Constants -/

/-- The initialization vector, as word values (rule R34, `91_not_in_source.md` N3). -/
def iv : Acc := #v[0x67452301, 0xEFCDAB89, 0x98BADCFE, 0x10325476]

/-- The words `[H[0], H[1], H[2], H[3]]`, that is `[A, B, C, D]` (rules R9, R126). -/
def accWords (h : Acc) : List Word := [h[0], h[1], h[2], h[3]]

end Sys2Proof.Machine
end

