-- ==== Sys2Proof/Config.lean ====
section
/-! DEFINITION. The implementation parameters of rule R6. The fixed ones are the widths and sizes of `Word.lean` and of
the machine; the open ones that a core's behaviour depends on are the fields of `Config`. The block has no free value:
every value its rules leave open is a parameter, a fault or the power-on content of the buffer (log entry 1). -/

namespace Sys2Proof

/-- The open parameters of one core (rule R6). `INSTANCES` is the length of a platform's list of cores
(`Machine/Platform.lean`, log entry 6) and `PORT_MAP` places ports that carry values only (log entry 7). -/
structure Config where
  /-- `SEED_ENABLED`: whether `SEED_LEN_LO` and `SEED_LEN_HI` exist (rules R6, R63, R168). -/
  seedEnabled : Bool
deriving DecidableEq, Repr

/-- The default the spec names: "OPEN; the spec's default is `true`" (rule R6). -/
def Config.standard : Config := { seedEnabled := true }

end Sys2Proof
end

