-- ==== Sys2Proof/Syntax.lean ====
section
/-! DEFINITION. The commands of the block, one constructor per row of `spec/opcode_table.json` (rule R61), and the
lines of a command listing with its pseudo-commands (rules R67 to R70). -/

namespace Sys2Proof

/-- The eight commands of rule R61, each with the operand that rule R62 takes from `ARG`. -/
inductive Instr where
  /-- `START` (rule R140): open a new session. -/
  | start
  /-- `APPEND b` (rule R100): absorb one message byte. -/
  | append (b : Byte)
  /-- `FINALIZE raw|hex` (rule R120): end the message; `raw = true` asks for the four words, `false` for hexadecimal. -/
  | finalize (raw : Bool)
  /-- `SEED_LEN_LO v` (rule R141): write `L[31:0]`. -/
  | seedLenLo (v : Word)
  /-- `SEED_LEN_HI v` (rule R142): write `L[63:32]`. -/
  | seedLenHi (v : Word)
  /-- `READ_STATUS` (rule R143). -/
  | readStatus
  /-- `READ_LEN_LO` (rule R144). -/
  | readLenLo
  /-- `READ_LEN_HI` (rule R145). -/
  | readLenHi
deriving DecidableEq, Repr

/-- One line of a command listing (rule R67), the three pseudo-commands of rules R68 to R70 among them. -/
inductive Line where
  /-- A mnemonic with its operand. -/
  | cmd (i : Instr)
  /-- `.word 0x…`: a raw 64-bit word, legal or not (rule R67). -/
  | word (w : Cmd)
  /-- `APPEND_BYTES b0, …, bk-1` (rule R68). -/
  | appendBytes (bs : List Byte)
  /-- `SEED_LEN v` (rule R69). -/
  | seedLen (v : Len)
  /-- `HASH raw|hex, b0, …, bk-1` (rule R70). -/
  | hash (raw : Bool) (bs : List Byte)
deriving DecidableEq, Repr

end Sys2Proof
end

