-- ==== Sys2Proof/WellFormed.lean ====
section
/-! DEFINITION. Which commands a core has. The operands' widths are carried by their types, so the one check left is the
parameter that decides whether the two seeding commands exist (rules R63, R168). -/

namespace Sys2Proof

/-- "`SEED_LEN_LO` and `SEED_LEN_HI` exist only when the parameter `SEED_ENABLED` is true" (rule R168); every other
command exists in every core. -/
def wellFormed (cfg : Config) : Instr → Bool
  | .start => true
  | .append _ => true
  | .finalize _ => true
  | .seedLenLo _ => cfg.seedEnabled
  | .seedLenHi _ => cfg.seedEnabled
  | .readStatus => true
  | .readLenLo => true
  | .readLenHi => true

end Sys2Proof
end

