-- ==== Sys2Proof/Decode.lean ====
section
/-! DEFINITION. The decoder, total on 64-bit words, the encoder, and the opcode table of rule R61 as data. Decoding reads the
format alone (rules R60 to R62); whether a core has the seeding commands is its parameter (`wellFormed`), and `illegal`
joins the two as rule R63 does. -/

namespace Sys2Proof

open Machine

/-- Why a word is no command of any core (rule R63). -/
inductive DecodeError where
  /-- `OP` is 0x00 or in 0x09..0xFF. -/
  | unknownOpcode (op : Byte)
  /-- `RSV != 0`. -/
  | reservedBits
  /-- A bit of the "must be 0" column of rule R61 is 1. -/
  | argumentBits
deriving DecidableEq, Repr

/-- A command that uses no bit of `ARG`. -/
def decodeNoArg (arg : Word) (i : Instr) : Except DecodeError Instr :=
  if arg = 0 then .ok i else .error .argumentBits

/-- The command of a word whose `RSV` is 0: the rows of rule R61, with the operands of rule R62. -/
def decodeOp (op : Byte) (arg : Word) : Except DecodeError Instr :=
  if op = 0x01 then decodeNoArg arg .start
  else if op = 0x02 then
    if aboveByte arg = 0 then .ok (.append (byteOperand arg)) else .error .argumentBits
  else if op = 0x03 then
    if aboveFlag arg = 0 then .ok (.finalize (rawOperand arg)) else .error .argumentBits
  else if op = 0x04 then .ok (.seedLenLo arg)
  else if op = 0x05 then .ok (.seedLenHi arg)
  else if op = 0x06 then decodeNoArg arg .readStatus
  else if op = 0x07 then decodeNoArg arg .readLenLo
  else if op = 0x08 then decodeNoArg arg .readLenHi
  else .error (.unknownOpcode op)

/-- The decoder: total on all 64-bit words, refusing by name what rule R61 does not list. -/
def decode (w : Cmd) : Except DecodeError Instr :=
  if rsvField w = 0 then decodeOp (opField w) (argField w) else .error .reservedBits

/-- "A command word is illegal" (rule R63), in a core with the parameter `cfg`. -/
def illegal (cfg : Config) (w : Cmd) : Bool :=
  match decode w with
  | .ok i => !wellFormed cfg i
  | .error _ => true

/-- The opcode column of rule R61. -/
def opcode : Instr → Byte
  | .start => 0x01
  | .append _ => 0x02
  | .finalize _ => 0x03
  | .seedLenLo _ => 0x04
  | .seedLenHi _ => 0x05
  | .readStatus => 0x06
  | .readLenLo => 0x07
  | .readLenHi => 0x08

/-- The `ARG` column of rule R61, every bit it does not use 0. -/
def argument : Instr → Word
  | .start => 0
  | .append b => argOfByte b
  | .finalize raw => argOfFlag raw
  | .seedLenLo v => v
  | .seedLenHi v => v
  | .readStatus => 0
  | .readLenLo => 0
  | .readLenHi => 0

/-- The encoder: the word of a command (rules R60 to R62). -/
def encode (i : Instr) : Cmd := packCmd (opcode i) 0 (argument i)

/-- One row of `spec/opcode_table.json`: a word is that row's command when `w & mask = match`. -/
structure OpcodeRow where
  mnemonic : String
  matchBits : Cmd
  mask : Cmd
deriving DecidableEq, Repr

/-- The opcode table as the spec writes it down, match and mask. -/
def opcodeTable : List OpcodeRow :=
  [ { mnemonic := "START", matchBits := 0x0100000000000000, mask := 0xFFFFFFFFFFFFFFFF }
  , { mnemonic := "APPEND", matchBits := 0x0200000000000000, mask := 0xFFFFFFFFFFFFFF00 }
  , { mnemonic := "FINALIZE", matchBits := 0x0300000000000000, mask := 0xFFFFFFFFFFFFFFFE }
  , { mnemonic := "SEED_LEN_LO", matchBits := 0x0400000000000000, mask := 0xFFFFFFFF00000000 }
  , { mnemonic := "SEED_LEN_HI", matchBits := 0x0500000000000000, mask := 0xFFFFFFFF00000000 }
  , { mnemonic := "READ_STATUS", matchBits := 0x0600000000000000, mask := 0xFFFFFFFFFFFFFFFF }
  , { mnemonic := "READ_LEN_LO", matchBits := 0x0700000000000000, mask := 0xFFFFFFFFFFFFFFFF }
  , { mnemonic := "READ_LEN_HI", matchBits := 0x0800000000000000, mask := 0xFFFFFFFFFFFFFFFF } ]

/-- Whether a word has the bits a row asks for. -/
def OpcodeRow.accepts (r : OpcodeRow) (w : Cmd) : Bool := w &&& r.mask == r.matchBits

/-- The mnemonic column of rule R61. -/
def mnemonic : Instr → String
  | .start => "START"
  | .append _ => "APPEND"
  | .finalize _ => "FINALIZE"
  | .seedLenLo _ => "SEED_LEN_LO"
  | .seedLenHi _ => "SEED_LEN_HI"
  | .readStatus => "READ_STATUS"
  | .readLenLo => "READ_LEN_LO"
  | .readLenHi => "READ_LEN_HI"

/-- The command word whose low `nbits` bits are `w`'s and whose other bits are 0. -/
def tableWord (nbits w : Nat) : Cmd := BitVec.ofNat 64 (w % 2 ^ nbits)

/-- What the decoder reads from a word given as the opcode table numbers its bits. -/
def decodeTableWord (nbits w : Nat) : Option Instr :=
  match decode (tableWord nbits w) with
  | .ok i => some i
  | .error _ => none

end Sys2Proof
end

