-- ==== Sys2Proof/Machine/State.lean ====
section
/-! DEFINITION. The state of one core (rule R20), its parameter (rule R6) and its side of the host interface (rules R12, R64),
with the state after power-on reset (rules R34, R180). Plain data throughout. -/

namespace Sys2Proof.Machine

/-- The values of the `phase` register (rule R27); the fourth 2-bit value is never held and does not exist here. -/
inductive Phase where
  /-- 0: a session is open and accepts bytes. -/
  | active
  /-- 1: `FINALIZE` has ended the session. -/
  | done
  /-- 2: a fault has been taken. -/
  | fault
deriving DecidableEq, Repr

/-- The values of the `fcode` register (rules R28, R161); codes 3..15 are never held and do not exist here. -/
inductive FaultCode where
  /-- 0: no fault since the last `START` or reset. -/
  | none
  /-- 1: `ILLEGAL_COMMAND`. -/
  | illegalCommand
  /-- 2: `SEQUENCE_ERROR`. -/
  | sequenceError
deriving DecidableEq, Repr

/-- The status of a response (rule R64): `OK` (0) or `FAULT` (1). -/
inductive RespStatus where
  | ok
  | fault
deriving DecidableEq, Repr

/-- The data of a response (rules R64, R65): none, 32-bit words, or character bytes. -/
inductive RespData where
  | empty
  | words (ws : List Word)
  | chars (cs : List Byte)
deriving DecidableEq, Repr

/-- One response, `resp = (status, data)` (rule R64). -/
structure Response where
  status : RespStatus
  data : RespData
deriving DecidableEq, Repr

/-- The reasons a core stops with a fault: there are none. The two faults of rule R161 are taken as next states by rule
R162 (`Machine.raise`), and the datapath "has no failure of its own" (rule R160). Safe: nothing is hidden by a stop. -/
inductive Fault where
deriving DecidableEq, Repr

/-- The reasons a step has no meaning. -/
inductive Refusal where
  /-- Raised by an arm of `exec` whose command has no meaning yet; no arm does. Safe. -/
  | notModelled (mnemonic : String)
  /-- Raised by `step` when more than one host drives the core: "A model admits exactly one host per core and refuses a
  launch with two" (rule R52). Safe: no claim is made about the race. -/
  | severalHosts
deriving DecidableEq, Repr

/-- One core between commands. -/
structure State where
  /-- The accumulator `H[0]`..`H[3]`, 4 × 32 bits (rule R21). -/
  acc : Acc
  /-- The block buffer `buf[0]`..`buf[63]`, 64 × 8 bits (rule R23). -/
  buf : Block
  /-- The occupancy `n`, 6 bits (rules R20, R25). -/
  n : BitVec 6
  /-- The total-length counter `L`, 64 bits (rule R26). -/
  len : Len
  /-- The sequencing register `phase` (rule R27). -/
  phase : Phase
  /-- The fault register `fcode` (rule R28). -/
  fcode : FaultCode
  /-- The core's parameter (rule R6), written by no step (log entry 2). -/
  cfg : Config
  /-- The hosts that drive the core, each with the commands it has yet to issue, oldest first (rules R12, R51, R52; log
  entry 3). -/
  hosts : List (List Cmd)
  /-- The responses returned so far, oldest first (rules R64, R165; log entry 3). -/
  resps : List Response
deriving DecidableEq, Repr

/-- Power-on reset of a core with parameter `cfg` whose buffer holds the arbitrary draw `draw` (rule R180): the values of
rule R34, one host that has issued nothing. -/
def State.powerOn (cfg : Config) (draw : Block) : State where
  acc := iv
  buf := draw
  n := 0
  len := 0
  phase := .active
  fcode := .none
  cfg := cfg
  hosts := [[]]
  resps := []

/-- The machine right after reset: the spec's default parameter, and a buffer of zeros where the spec leaves the bytes
unspecified (DESIGN CHOICE, log entry 1). -/
def State.reset : State := State.powerOn Config.standard (Vector.replicate 64 0x00)

end Sys2Proof.Machine
end

