-- ==== Sys2Proof/Machine/Flags.lean ====
section
/-! DEFINITION. The block has no flags or condition codes (rule R32). What a host can observe of its sequencing is the
`STATUS` view of rule R29, computed here from `n`, `phase` and `fcode`. -/

namespace Sys2Proof.Machine

/-- The 2-bit value of `phase` (rule R27). -/
def phaseBits : Phase → BitVec 2
  | .active => 0
  | .done => 1
  | .fault => 2

/-- The 4-bit value of `fcode` (rule R28). -/
def fcodeBits : FaultCode → BitVec 4
  | .none => 0
  | .illegalCommand => 1
  | .sequenceError => 2

/-- `STATUS = zext_32({fcode[3:0], 000000b, phase[1:0], 00b, n[5:0]})` (rule R29). -/
def statusWord (s : State) : Word :=
  (fcodeBits s.fcode ++ (0 : BitVec 6) ++ phaseBits s.phase ++ (0 : BitVec 2) ++ s.n).zeroExtend 32

end Sys2Proof.Machine
end

