-- ==== Sys2Proof/Machine/Ops.lean ====
section
/-! DEFINITION. The operations the commands share: writing one register, responding (rule R64), taking a fault (rule R162) and the return from one
(rule R166), the checks of the phase and of the parameter that come before a command's own effect (rules R66, R164),
and taking the next command from the host (rules R12, R51). -/

namespace Sys2Proof.Machine

/-! ### Writing one register (rule R9) -/

/-- `H <- v`. -/
def setAcc (v : Acc) (s : State) : State := { s with acc := v }

/-- The whole buffer. -/
def setBuf (v : Block) (s : State) : State := { s with buf := v }

/-- `n <- v`. -/
def setN (v : BitVec 6) (s : State) : State := { s with n := v }

/-- `L <- v`. -/
def setLen (v : Len) (s : State) : State := { s with len := v }

/-- `phase <- v`. -/
def setPhase (v : Phase) (s : State) : State := { s with phase := v }

/-- `fcode <- v`. -/
def setFcode (v : FaultCode) (s : State) : State := { s with fcode := v }

/-- What the hosts have yet to issue. -/
def setHosts (v : List (List Cmd)) (s : State) : State := { s with hosts := v }

/-- One more response, the latest. -/
def addResp (r : Response) (s : State) : State := { s with resps := s.resps ++ [r] }

/-! ### Responses -/

/-- `respond(status, data)` (rules R9, R64): the response is returned and the step ends. -/
def respond (status : RespStatus) (data : RespData) (s : State) : State :=
  addResp { status := status, data := data } s

/-- `respond(OK, data)`. -/
def respondOk (data : RespData) (s : State) : State := respond .ok data s

/-- `respond(FAULT, [])`: "a `FAULT` response has empty `data`" (rule R64). -/
def respondFault (s : State) : State := respond .fault .empty s

/-! ### Faults -/

/-- `raise Fault(code)` (rule R162): the first code is kept, no register but `fcode` and `phase` changes, and the host gets a
`FAULT` response. -/
def raise (code : FaultCode) (s : State) : State :=
  respondFault <|
    match s.phase with
    | .fault => s
    | .active => setPhase .fault (setFcode code s)
    | .done => setPhase .fault (setFcode code s)

/-- The return from a fault and from `DONE`, and the opening of a session (rules R140, R166): every register but `buf` takes
its value of rule R34. -/
def openSession (s : State) : State :=
  setFcode .none (setPhase .active (setN 0 (setLen 0 (setAcc iv s))))

/-! ### The checks before a command's own effect -/

/-- The lines of rule R66 before `APPEND`, `FINALIZE` and `SEED_LEN_*`: in `FAULT` a silent `FAULT` response, in `DONE` a
`SEQUENCE_ERROR`, in `ACTIVE` the command's own effect. -/
def inSession (effect : State → State) (s : State) : State :=
  match s.phase with
  | .fault => respondFault s
  | .done => raise .sequenceError s
  | .active => effect s

/-- The legality of `SEED_LEN_*`, checked before the phase (rules R63, R164), then the phase. -/
def ifSeeding (effect : State → State) (s : State) : State :=
  if s.cfg.seedEnabled then inSession effect s else raise .illegalCommand s

/-! ### The command port -/

/-- What the core finds at its command port. -/
inductive Port where
  /-- No host has issued a command. -/
  | idle
  /-- The one host issues `w`; `s` is the state with that command taken from the host. -/
  | command (w : Cmd) (s : State)
  /-- More than one host drives the core. -/
  | severalHosts
deriving DecidableEq, Repr

/-- The next command of the one host that drives the core, in the order the host issues them (rules R12, R51, R52). -/
def nextCommand (s : State) : Port :=
  match s.hosts with
  | [] => .idle
  | [[]] => .idle
  | [w :: later] => .command w (setHosts [later] s)
  | _ :: _ :: _ => .severalHosts

/-- The state in which the one host issues `w` next, before what it was about to issue. Of several hosts the first is kept and
the others are dropped, so that the next step runs `w` (DESIGN CHOICE, log entry 4). -/
def issueFirst (w : Cmd) (s : State) : State :=
  match s.hosts with
  | [] => setHosts [[w]] s
  | later :: _ => setHosts [w :: later] s

/-- The state in which the one host is to issue exactly `ws`, in order. -/
def issueAll (ws : List Cmd) (s : State) : State := setHosts [ws] s

end Sys2Proof.Machine
end

