-- ==== Sys2Proof/Machine/Compress.lean ====
section
/-! DEFINITION. The compression function (`40_compression.md`): the four round functions, the step parameters, one step, the
feed-forward and `Compress`. The tables are the spec's supply from general knowledge (log entry 8). -/

namespace Sys2Proof.Machine

/-! ### Words -/

/-- `rotl32(x, s)` for `1 <= s <= 31` (rule R8). -/
def rotl32 (x : Word) (s : Nat) : Word := (x <<< s) ||| (x >>> (32 - s))

/-- `F(x, y, z) = (x & y) | (~x & z)` (rule R80). -/
def roundF (x y z : Word) : Word := (x &&& y) ||| (~~~x &&& z)

/-- `G(x, y, z) = (x & z) | (y & ~z)` (rule R81). -/
def roundG (x y z : Word) : Word := (x &&& z) ||| (y &&& ~~~z)

/-- `H(x, y, z) = x ^ y ^ z` (rule R82). -/
def roundH (x y z : Word) : Word := x ^^^ y ^^^ z

/-- `I(x, y, z) = y ^ (x | ~z)` (rule R83). -/
def roundI (x y z : Word) : Word := y ^^^ (x ||| ~~~z)

/-! ### Step parameters (rule R85) -/

/-- `fn_r`: the round function of step `i`, of round `r = i div 16`. -/
def stepFn (i : Nat) : Word → Word → Word → Word :=
  match i / 16 with
  | 0 => roundF
  | 1 => roundG
  | 2 => roundH
  | _ => roundI

/-- `g(i)`: the index of the message word that step `i` adds. -/
def msgIndex (i : Nat) : Fin 16 :=
  match i / 16 with
  | 0 => Fin.ofNat 16 i
  | 1 => Fin.ofNat 16 (5 * i + 1)
  | 2 => Fin.ofNat 16 (3 * i + 5)
  | _ => Fin.ofNat 16 (7 * i)

/-- The four amounts that a round cycles through. -/
def roundShifts (r : Nat) : List Nat :=
  match r with
  | 0 => [7, 12, 17, 22]
  | 1 => [5, 9, 14, 20]
  | 2 => [4, 11, 16, 23]
  | _ => [6, 10, 15, 21]

/-- `s(i)`: the rotation amount of step `i`. -/
def shiftAmount (i : Nat) : Nat := (roundShifts (i / 16)).getD (i % 4) 0

/-- `K[0]`..`K[15]`. -/
def constantsF : List Word :=
  [ 0xd76aa478, 0xe8c7b756, 0x242070db, 0xc1bdceee, 0xf57c0faf, 0x4787c62a, 0xa8304613, 0xfd469501
  , 0x698098d8, 0x8b44f7af, 0xffff5bb1, 0x895cd7be, 0x6b901122, 0xfd987193, 0xa679438e, 0x49b40821 ]

/-- `K[16]`..`K[31]`. -/
def constantsG : List Word :=
  [ 0xf61e2562, 0xc040b340, 0x265e5a51, 0xe9b6c7aa, 0xd62f105d, 0x02441453, 0xd8a1e681, 0xe7d3fbc8
  , 0x21e1cde6, 0xc33707d6, 0xf4d50d87, 0x455a14ed, 0xa9e3e905, 0xfcefa3f8, 0x676f02d9, 0x8d2a4c8a ]

/-- `K[32]`..`K[47]`. -/
def constantsH : List Word :=
  [ 0xfffa3942, 0x8771f681, 0x6d9d6122, 0xfde5380c, 0xa4beea44, 0x4bdecfa9, 0xf6bb4b60, 0xbebfbc70
  , 0x289b7ec6, 0xeaa127fa, 0xd4ef3085, 0x04881d05, 0xd9d4d039, 0xe6db99e5, 0x1fa27cf8, 0xc4ac5665 ]

/-- `K[48]`..`K[63]`. -/
def constantsI : List Word :=
  [ 0xf4292244, 0x432aff97, 0xab9423a7, 0xfc93a039, 0x655b59c3, 0x8f0ccc92, 0xffeff47d, 0x85845dd1
  , 0x6fa87e4f, 0xfe2ce6e0, 0xa3014314, 0x4e0811a1, 0xf7537e82, 0xbd3af235, 0x2ad7d2bb, 0xeb86d391 ]

/-- `K[0]`..`K[63]`, fixed and not writable (rules R55, R85). -/
def constants : List Word := constantsF ++ constantsG ++ constantsH ++ constantsI

/-- `K[i]`: the additive constant of step `i`, for `i = 0..63`. -/
def stepConstant (i : Nat) : Word := constants.getD i 0

/-! ### The function -/

/-- The value `t` that step `i` rotates: three wrapping additions (rule R86). -/
def stepSum (m : Fin 16 → Word) (q : Quad) (i : Nat) : Word :=
  q.a + stepFn i q.b q.c q.d + stepConstant i + m (msgIndex i)

/-- Step `i` on the working registers, for the message words `m` (rule R86). -/
def compressStep (m : Fin 16 → Word) (q : Quad) (i : Nat) : Quad :=
  { a := q.d, b := q.b + rotl32 (stepSum m q i) (shiftAmount i), c := q.b, d := q.c }

/-- `(a, b, c, d) <- (H[0], H[1], H[2], H[3])` (rule R88). -/
def loadWorking (h : Acc) : Quad := { a := h[0], b := h[1], c := h[2], d := h[3] }

/-- The working registers after steps `0 .. k-1`, starting from `q` (rule R88). -/
def compressSteps (m : Fin 16 → Word) (q : Quad) (k : Nat) : Quad := (List.range k).foldl (compressStep m) q

/-- The feed-forward: each working word added to the accumulator word before step 0 (rule R87). -/
def feedForward (h : Acc) (q : Quad) : Acc := #v[h[0] + q.a, h[1] + q.b, h[2] + q.c, h[3] + q.d]

/-- `Compress(H, blk)` (rule R88). Irreducible so that comparing two states never unfolds 64 steps; proofs unfold it by its
equation. -/
@[irreducible] def compress (h : Acc) (blk : Block) : Acc :=
  feedForward h (compressSteps (bufRead blk) (loadWorking h) 64)

/-- `H <- Compress(H, buf)`: the one form in which the block calls it (rules R88, R90). -/
def compressBuf (s : State) : State := setAcc (compress s.acc s.buf) s

end Sys2Proof.Machine
end

