-- ==== Sys2Proof/Machine/Absorb.lean ====
section
/-! DEFINITION. Absorbing bytes (`41_absorb.md`): the rolling buffer, the block-fill detector, and `APPEND`. -/

namespace Sys2Proof.Machine

/-- The drain of a full block: one compression, the length counter up by 64, the buffer empty (rules R100 to R102). -/
def drain (s : State) : State := setN 0 (setLen (s.len + 64) (compressBuf s))

/-- The effect of `APPEND b` in an open session (rule R100): the byte at `buf[n]`, `n` up by one, and the block-fill detector
`n = 64`. The detector reads the sum before it is narrowed to the register's 6 bits. -/
def absorb (b : Byte) (s : State) : State :=
  let s' := setBuf (bufSet s.buf s.n b) s
  if s.n.toNat + 1 = 64 then drain s' else setN (s.n + 1) s'

/-- `APPEND b` (rule R100). -/
def execAppend (b : Byte) (s : State) : Host.Outcome State Fault Refusal :=
  .next (inSession (fun s => respondOk .empty (absorb b s)) s)

end Sys2Proof.Machine
end

