-- ==== Sys2Proof/Machine/Control.lean ====
section
/-! DEFINITION. The control commands (`43_control.md`): restart, length seeding, status and length reads. -/

namespace Sys2Proof.Machine

/-- `START` (rule R140): accepted in every phase. Repeated, it leaves the same registers, as rule R140 says against rule R48
(log entry 15). -/
def execStart (s : State) : Host.Outcome State Fault Refusal := .next (respondOk .empty (openSession s))

/-- `SEED_LEN_LO v` (rule R141). Repeated, it leaves the same registers (log entry 15). -/
def execSeedLenLo (v : Word) (s : State) : Host.Outcome State Fault Refusal :=
  .next (ifSeeding (fun s => respondOk .empty (setLen (withLenLo s.len v) s)) s)

/-- `SEED_LEN_HI v` (rule R142). Repeated, it leaves the same registers (log entry 15). -/
def execSeedLenHi (v : Word) (s : State) : Host.Outcome State Fault Refusal :=
  .next (ifSeeding (fun s => respondOk .empty (setLen (withLenHi s.len v) s)) s)

/-- `READ_STATUS` (rule R143): accepted in every phase; no register is written. -/
def execReadStatus (s : State) : Host.Outcome State Fault Refusal := .next (respondOk (.words [statusWord s]) s)

/-- `READ_LEN_LO` (rule R144): accepted in every phase; no register is written. -/
def execReadLenLo (s : State) : Host.Outcome State Fault Refusal := .next (respondOk (.words [lenLo s.len]) s)

/-- `READ_LEN_HI` (rule R145): accepted in every phase; no register is written. -/
def execReadLenHi (s : State) : Host.Outcome State Fault Refusal := .next (respondOk (.words [lenHi s.len]) s)

end Sys2Proof.Machine
end

