-- ==== Sys2Proof/Machine/Finalize.lean ====
section
/-! DEFINITION. Finalization (`42_finalize.md`): the steps (a) to (f) of `FINALIZE`, one definition each. -/

namespace Sys2Proof.Machine

/-- Step (a), the length record: `L <- L +64 zext_64(n)` (rule R121). -/
def recordLength (s : State) : State := setLen (s.len + s.n.zeroExtend 64) s

/-- Step (b), the padding byte and the zero fill (rule R122). -/
def padBuffer (s : State) : State := setBuf (bufPad s.buf s.n) s

/-- Step (c), the extra-block decision on the occupancy before padding (rule R123). -/
def extraBlock (s : State) : State :=
  if 55 < s.n.toNat then setBuf zeroBlock (compressBuf s) else s

/-- `bl = (8 * L) mod 2^64` (rule R124). -/
def bitLength (l : Len) : Len := l * 8

/-- Step (d), the bit-length encoder: the low half into word 14, the high half into word 15 (rules R43, R124). -/
def encodeLength (s : State) : State :=
  setBuf (bufWrite (bufWrite s.buf 14 (lenLo (bitLength s.len))) 15 (lenHi (bitLength s.len))) s

/-- Steps (a) to (e) and the end of the session (rules R121 to R125, R128). -/
def closeMessage (s : State) : State :=
  setPhase .done (compressBuf (encodeLength (extraBlock (padBuffer (recordLength s)))))

/-- `hexdigit(v)`: the ASCII code of a lowercase hexadecimal digit (rule R127). -/
def hexDigit (v : BitVec 4) : Byte :=
  if v.toNat < 10 then 0x30 + v.zeroExtend 8 else 0x61 + (v.zeroExtend 8 - 10)

/-- The two characters of a byte, high nibble first (rule R127). -/
def hexByte (b : Byte) : List Byte := [hexDigit (b.extractLsb' 4 4), hexDigit (b.extractLsb' 0 4)]

/-- The four bytes of a word, the least significant first (rule R44). -/
def wordBytes (v : Word) : List Byte := [wordByte v 0, wordByte v 1, wordByte v 2, wordByte v 3]

/-- The 16 digest bytes: the words `A, B, C, D`, each in little-endian byte order (rule R44). -/
def digestBytes (h : Acc) : List Byte := (accWords h).flatMap wordBytes

/-- `HexBytes(H)`: the 32 character codes of the hexadecimal digest (rule R127). -/
def hexBytes (h : Acc) : List Byte := (digestBytes h).flatMap hexByte

/-- Step (f), the response data: the four words (rule R126) or the hexadecimal string (rule R127). -/
def digestData (raw : Bool) (h : Acc) : RespData :=
  if raw then .words (accWords h) else .chars (hexBytes h)

/-- The effect of `FINALIZE` in an open session (rule R120). -/
def finish (raw : Bool) (s : State) : State :=
  let s' := closeMessage s
  respondOk (digestData raw s'.acc) s'

/-- `FINALIZE raw|hex` (rule R120). -/
def execFinalize (raw : Bool) (s : State) : Host.Outcome State Fault Refusal :=
  .next (inSession (finish raw) s)

end Sys2Proof.Machine
end

