-- ==== Sys2Proof/Machine/Dispatch.lean ====
section
/-! DEFINITION. One arm per command: the meaning each has once it is decoded. -/

namespace Sys2Proof.Machine

def exec (i : Instr) (s : State) : Host.Outcome State Fault Refusal :=
  match i with
  | .start => Sys2Proof.Machine.execStart s
  | .append b => Sys2Proof.Machine.execAppend b s
  | .finalize raw => Sys2Proof.Machine.execFinalize raw s
  | .seedLenLo v => Sys2Proof.Machine.execSeedLenLo v s
  | .seedLenHi v => Sys2Proof.Machine.execSeedLenHi v s
  | .readStatus => Sys2Proof.Machine.execReadStatus s
  | .readLenLo => Sys2Proof.Machine.execReadLenLo s
  | .readLenHi => Sys2Proof.Machine.execReadLenHi s

end Sys2Proof.Machine
end

