-- ==== Sys2Proof/Machine/Step.lean ====
section
/-! DEFINITION. One step of the core: the next command of its host, decoded and performed whole (rules R10, R47, R66). -/

namespace Sys2Proof.Machine

/-- A command word on a core that has taken it from its host (rule R66): a word that is no command of any core raises
`ILLEGAL_COMMAND`, whatever the phase; the parameter and the phase are checked by the command's meaning. -/
def perform (w : Cmd) (s : State) : Host.Outcome State Fault Refusal :=
  match decode w with
  | .error _ => .next (raise .illegalCommand s)
  | .ok i => exec i s

/-- One step: one command from issue to response. With no command issued nothing happens (log entry 3). -/
def step (s : State) : Host.Outcome State Fault Refusal :=
  match nextCommand s with
  | .idle => .next s
  | .command w s' => perform w s'
  | .severalHosts => .refused .severalHosts

/-- The state with one host, which issues the given word next (log entry 4). -/
def State.withFetchWord (s : State) (nbits w : Nat) : State := issueFirst (tableWord nbits w) s

end Sys2Proof.Machine
end

