-- ==== Sys2Proof/Machine/Platform.lean ====
section
/-! DEFINITION. A platform with any number of cores (parameter `INSTANCES` of rule R6, rules R37 and R170): the cores share
nothing, so a platform is a list of core states and one core steps at a time. -/

namespace Sys2Proof.Machine

/-- The cores of a platform. -/
structure Platform where
  cores : List State
deriving DecidableEq, Repr

/-- Core `k` performs one step; the other cores keep their states (rules R37, R170). -/
def platformStep (p : Platform) (k : Fin p.cores.length) : Host.Outcome Platform Fault Refusal :=
  match step p.cores[k] with
  | .next s => .next { cores := p.cores.set k s }
  | .fault r => .fault r
  | .refused r => .refused r

end Sys2Proof.Machine
end

