-- ==== Sys2Proof/Machine/Reference.lean ====
section
/-! DEFINITION. The message digest as a function of the whole message, independent of the buffer and of `FINALIZE`: the padded
message of rule R131, cut into blocks, folded with `Compress` from the initialization vector (rules R104, R131). -/

namespace Sys2Proof.Machine

/-- "the least number of `0x00` bytes that makes the length `56 mod 64`" after `len` bytes and the `0x80` (rule R131). -/
def zeroFill (len : Nat) : Nat := (119 - len % 64) % 64

/-- "the 8-byte little-endian bit-length `8|m| mod 2^64`" (rule R131). -/
def lengthField (len : Nat) : List Byte := (List.range 8).map fun k => BitVec.ofNat 8 (8 * len / 256 ^ k)

/-- The standard padded message (rule R131). -/
def padded (m : List Byte) : List Byte :=
  m ++ (0x80 : Byte) :: (List.replicate (zeroFill m.length) 0x00 ++ lengthField m.length)

/-- Bytes `64k .. 64k+63` of a byte string; only used where they exist. -/
def blockAt (l : List Byte) (k : Nat) : Block := Vector.ofFn fun i => l.getD (64 * k + i.val) 0x00

/-- The complete 64-byte blocks of a byte string, in order; an incomplete tail is left out. -/
def blocks (l : List Byte) : List Block := (List.range (l.length / 64)).map (blockAt l)

/-- The fold of `Compress` over the complete blocks of a byte string, starting from the initialization vector. -/
def digestOfBlocks (l : List Byte) : Acc := (blocks l).foldl compress iv

/-- The digest of a message (rule R131). -/
def md5 (m : List Byte) : Acc := digestOfBlocks (padded m)

end Sys2Proof.Machine
end

