-- ==== Sys2Proof/Machine/Listing.lean ====
section
/-! DEFINITION. Command listings: what a line issues (rules R67 to R70), and what happens when one host issues a whole
sequence of words to a core (rules R12, R51). -/

namespace Sys2Proof.Machine

/-- The commands of `APPEND_BYTES` (rule R68): one `APPEND` per byte, in order; none for no bytes. -/
def appendBytes (bs : List Byte) : List Instr := bs.map .append

/-- The commands of `SEED_LEN v` (rule R69): the low half, then the high half. -/
def seedLen (v : Len) : List Instr := [.seedLenLo (lenLo v), .seedLenHi (lenHi v)]

/-- The commands of `HASH raw|hex, b0, …, bk-1` (rule R70). -/
def hashCommands (raw : Bool) (bs : List Byte) : List Instr := .start :: (appendBytes bs ++ [.finalize raw])

/-- The words one line issues. -/
def lineWords : Line → List Cmd
  | .cmd i => [encode i]
  | .word w => [w]
  | .appendBytes bs => (appendBytes bs).map encode
  | .seedLen v => (seedLen v).map encode
  | .hash raw bs => (hashCommands raw bs).map encode

/-- The words a listing issues. -/
def assemble (ls : List Line) : List Cmd := ls.flatMap lineWords

/-- One host issues the words `ws` to the core, waiting for each response; nothing else is pending. -/
def issueRun (ws : List Cmd) (s : State) : Host.Outcome State Fault Refusal :=
  Sys2Proof.core.run ws.length (issueAll ws s)

end Sys2Proof.Machine
end

