-- ==== Sys2Proof/Machine/Text.lean ====
section
/-! DEFINITION. The text of a command listing (rules R67 to R70): how a line is written and how it is read. Where the rule gives
several spellings of an operand, all are read and the hexadecimal one is written (log entry 12). -/

namespace Sys2Proof.Machine

/-- A line of text. -/
abbrev Text := List Char

/-! ### Numbers -/

/-- The hexadecimal digit of `d`, for `d < 16`. -/
def hexChar (d : Nat) : Char := if d < 10 then Char.ofNat (0x30 + d) else Char.ofNat (0x37 + d)

/-- `k` hexadecimal digits of `v`, the most significant first. -/
def hexText : Nat → Nat → Text
  | 0, _ => []
  | k + 1, v => hexChar (v / 16 ^ k % 16) :: hexText k v

/-- `0xHH…`, with `k` digits. -/
def hexLiteral (k v : Nat) : Text := '0' :: 'x' :: hexText k v

/-- The value of a decimal digit. -/
def decValue (c : Char) : Option Nat := if '0' ≤ c ∧ c ≤ '9' then some (c.toNat - 0x30) else none

/-- The value of a hexadecimal digit, of either case. -/
def hexValue (c : Char) : Option Nat :=
  if 'A' ≤ c ∧ c ≤ 'F' then some (c.toNat - 0x37)
  else if 'a' ≤ c ∧ c ≤ 'f' then some (c.toNat - 0x57)
  else decValue c

/-- Reads digits on from the value `acc` of those already read. -/
def readDigits (value : Char → Option Nat) (base acc : Nat) : Text → Nat × Text
  | [] => (acc, [])
  | c :: t =>
    match value c with
    | some d => readDigits value base (acc * base + d) t
    | none => (acc, c :: t)

/-- A number, `0x` and hexadecimal digits or decimal digits, and the text after it. -/
def readNumber : Text → Option (Nat × Text)
  | '0' :: 'x' :: c :: t => (hexValue c).map fun d => readDigits hexValue 16 d t
  | c :: t => (decValue c).map fun d => readDigits decValue 10 d t
  | [] => none

/-! ### Operands -/

/-- The text without the blanks before it. -/
def skipBlanks (t : Text) : Text := t.dropWhile (· == ' ')

/-- A byte: `0xHH`, a decimal number 0..255 or a quoted ASCII character (rule R67). -/
def readByte : Text → Option (Byte × Text)
  | '\'' :: c :: '\'' :: t => if c.toNat < 128 then some (BitVec.ofNat 8 c.toNat, t) else none
  | t =>
    match readNumber t with
    | some (v, rest) => if v < 256 then some (BitVec.ofNat 8 v, rest) else none
    | none => none

/-- A comma and a byte, any number of times, to the end of the line; `fuel` bounds how often. -/
def readMoreBytes : Nat → Text → Option (List Byte)
  | 0, t => if skipBlanks t = [] then some [] else none
  | fuel + 1, t =>
    match skipBlanks t with
    | [] => some []
    | c :: t =>
      if c = ',' then
        match readByte (skipBlanks t) with
        | some (b, rest) => (readMoreBytes fuel rest).map (b :: ·)
        | none => none
      else none

/-- Bytes separated by commas, or nothing (rule R68). -/
def readBytes (t : Text) : Option (List Byte) :=
  match skipBlanks t with
  | [] => some []
  | t => readMoreBytes (t.length + 1) (',' :: t)

/-- One number below `bound`, and nothing after it. -/
def readOnly (bound : Nat) (t : Text) : Option Nat :=
  match readNumber t with
  | some (v, rest) => if v < bound ∧ skipBlanks rest = [] then some v else none
  | none => none

/-- `raw` or `hex`, and the text after it (rules R67, R70). -/
def readForm : Text → Option (Bool × Text)
  | 'r' :: 'a' :: 'w' :: t => some (true, t)
  | 'h' :: 'e' :: 'x' :: t => some (false, t)
  | _ => none

/-! ### Lines -/

/-- A command without an operand. -/
def readNothing (i : Instr) (t : Text) : Option Line := if t = [] then some (.cmd i) else none

/-- The operands of a line with the given mnemonic (rules R67 to R70). -/
def readOperands (m t : Text) : Option Line :=
  if m = "START".toList then readNothing .start t
  else if m = "APPEND".toList then
    match readByte t with
    | some (b, rest) => if skipBlanks rest = [] then some (.cmd (.append b)) else none
    | none => none
  else if m = "FINALIZE".toList then
    match readForm t with
    | some (raw, rest) => if skipBlanks rest = [] then some (.cmd (.finalize raw)) else none
    | none => none
  else if m = "SEED_LEN_LO".toList then (readOnly (2 ^ 32) t).map fun v => .cmd (.seedLenLo (BitVec.ofNat 32 v))
  else if m = "SEED_LEN_HI".toList then (readOnly (2 ^ 32) t).map fun v => .cmd (.seedLenHi (BitVec.ofNat 32 v))
  else if m = "READ_STATUS".toList then readNothing .readStatus t
  else if m = "READ_LEN_LO".toList then readNothing .readLenLo t
  else if m = "READ_LEN_HI".toList then readNothing .readLenHi t
  else if m = ".word".toList then (readOnly (2 ^ 64) t).map fun v => .word (BitVec.ofNat 64 v)
  else if m = "APPEND_BYTES".toList then (readBytes t).map .appendBytes
  else if m = "SEED_LEN".toList then (readOnly (2 ^ 64) t).map fun v => .seedLen (BitVec.ofNat 64 v)
  else if m = "HASH".toList then
    match readForm t with
    | some (raw, rest) => (readMoreBytes (rest.length + 1) rest).map (.hash raw)
    | none => none
  else none

/-- One line: the mnemonic, then its operands. -/
def readLine (t : Text) : Option Line :=
  let t := skipBlanks t
  readOperands (t.takeWhile (· != ' ')) (skipBlanks (t.dropWhile (· != ' ')))

/-- The words a written listing issues; none where a line is not of the syntax. -/
def assembleText (lines : List Text) : Option (List Cmd) := (lines.mapM readLine).map assemble

/-- A byte after a comma. -/
def writeMoreBytes (bs : List Byte) : Text := bs.flatMap fun b => ',' :: ' ' :: hexLiteral 2 b.toNat

/-- Bytes separated by commas. -/
def writeBytes (bs : List Byte) : Text := (writeMoreBytes bs).drop 1

/-- `raw` or `hex`. -/
def writeForm (raw : Bool) : Text := if raw then "raw".toList else "hex".toList

/-- The text of a line (rules R67 to R70). -/
def writeLine : Line → Text
  | .cmd .start => "START".toList
  | .cmd (.append b) => "APPEND ".toList ++ hexLiteral 2 b.toNat
  | .cmd (.finalize raw) => "FINALIZE ".toList ++ writeForm raw
  | .cmd (.seedLenLo v) => "SEED_LEN_LO ".toList ++ hexLiteral 8 v.toNat
  | .cmd (.seedLenHi v) => "SEED_LEN_HI ".toList ++ hexLiteral 8 v.toNat
  | .cmd .readStatus => "READ_STATUS".toList
  | .cmd .readLenLo => "READ_LEN_LO".toList
  | .cmd .readLenHi => "READ_LEN_HI".toList
  | .word w => ".word ".toList ++ hexLiteral 16 w.toNat
  | .appendBytes bs => "APPEND_BYTES".toList ++ writeBytes bs
  | .seedLen v => "SEED_LEN ".toList ++ hexLiteral 16 v.toNat
  | .hash raw bs => "HASH ".toList ++ writeForm raw ++ writeMoreBytes bs

end Sys2Proof.Machine
end

