-- ==== Sys2Proof/Safety.lean ====
section
/-! DEFINITION. The predicates that claims about runs use: the invariants of rule R35, the kinds of commands, the registers of
rule R20, and states that differ in stale buffer bytes alone (rule R33). -/

namespace Sys2Proof.Machine

/-- "`fcode = 0` if and only if `phase != FAULT`" (rule R35). -/
abbrev Coherent (s : State) : Prop := s.fcode = .none ↔ s.phase ≠ .fault

/-- "`L` is a multiple of 64 while `phase = ACTIVE`" (rule R35). -/
abbrev LengthAligned (s : State) : Prop := s.phase = .active → s.len.toNat % 64 = 0

/-- `SEED_LEN_LO` and `SEED_LEN_HI`. -/
def isSeed : Instr → Bool
  | .seedLenLo _ => true
  | .seedLenHi _ => true
  | .start => false
  | .append _ => false
  | .finalize _ => false
  | .readStatus => false
  | .readLenLo => false
  | .readLenHi => false

/-- `READ_STATUS`, `READ_LEN_LO` and `READ_LEN_HI`. -/
def isRead : Instr → Bool
  | .readStatus => true
  | .readLenLo => true
  | .readLenHi => true
  | .start => false
  | .append _ => false
  | .finalize _ => false
  | .seedLenLo _ => false
  | .seedLenHi _ => false

/-- `APPEND`. -/
def isAppend : Instr → Bool
  | .append _ => true
  | .start => false
  | .finalize _ => false
  | .seedLenLo _ => false
  | .seedLenHi _ => false
  | .readStatus => false
  | .readLenLo => false
  | .readLenHi => false

/-- The commands that need an open session: `APPEND`, `FINALIZE`, `SEED_LEN_*` (rule R66). -/
def needsSession : Instr → Bool
  | .append _ => true
  | .finalize _ => true
  | .seedLenLo _ => true
  | .seedLenHi _ => true
  | .start => false
  | .readStatus => false
  | .readLenLo => false
  | .readLenHi => false

/-- The same values in all six registers of rule R20. -/
abbrev SameRegisters (s t : State) : Prop :=
  t.acc = s.acc ∧ t.buf = s.buf ∧ t.n = s.n ∧ t.len = s.len ∧ t.phase = s.phase ∧ t.fcode = s.fcode

/-- States that agree in everything but the stale bytes `buf[n..63]` (rules R25, R33). -/
abbrev SameButStale (s t : State) : Prop :=
  { t with buf := s.buf } = s ∧ ∀ i : Fin 64, i.val < s.n.toNat → t.buf[i] = s.buf[i]

/-- A state in which the core has taken no fault and has answered every command `OK`. -/
abbrev Clean (s : State) : Prop := s.phase ≠ .fault ∧ ∀ r ∈ s.resps, r.status = .ok

end Sys2Proof.Machine
end

