-- ==== Sys2Proof/Certificates/Slice0/Obligations.lean ====
section
/-! DEFINITION. The statements for the provers, grouped as the spec's files are. Rules the spec marks "[derived: …]" or "[from
general knowledge, not in source]" are stated as derived statements and their docstrings say so. -/

open Sys2Proof Sys2Proof.Machine

/-! ### Encoding (`30_encoding.md`) -/

/-- Rules R60 to R62, read together: every command, with every operand value, decodes from its own word. -/
def Obligations.DecodeInvertsEncode : Prop :=
  ∀ i : Instr, decode (encode i) = .ok i

/-- Rules R60 to R63, read together: every legal word is the encoding of the command it decodes to, so each word has one
meaning. -/
def Obligations.AcceptedWordIsItsEncoding : Prop :=
  ∀ (w : Cmd) (i : Instr), decode w = .ok i → encode i = w

/-- `opcode_table.json` with rule R61: a word has the bits of a row if and only if it decodes to that row's command. -/
def Obligations.DecodeMatchesOpcodeTable : Prop :=
  ∀ (w : Cmd) (r : OpcodeRow), r ∈ opcodeTable →
    (r.accepts w = true ↔ ∃ i, decode w = .ok i ∧ mnemonic i = r.mnemonic)

/-- Words written out from the rows of rule R61 and from the programs P1 to P5 of `95_test_vectors.md`. -/
def Obligations.SpecWordsDecode : Prop :=
  decode 0x0100000000000000 = .ok .start ∧
  decode 0x0200000000000068 = .ok (.append 0x68) ∧
  decode 0x0300000000000000 = .ok (.finalize false) ∧
  decode 0x0300000000000001 = .ok (.finalize true) ∧
  decode 0x0400000020000000 = .ok (.seedLenLo 0x20000000) ∧
  decode 0x0500000000000001 = .ok (.seedLenHi 1) ∧
  decode 0x0600000000000000 = .ok .readStatus ∧
  decode 0x0700000000000000 = .ok .readLenLo ∧
  decode 0x0800000000000000 = .ok .readLenHi ∧
  decode 0x0900000000000000 = .error (.unknownOpcode 0x09) ∧
  decode 0x0200000100000061 = .error .reservedBits ∧
  decode 0x0200000000000161 = .error .argumentBits

/-- Rules R67 to R70, read together: every line of a listing, the pseudo-commands among them, reads back as it is written. -/
def Obligations.ListingLinesReadBack : Prop :=
  ∀ l : Line, readLine (writeLine l) = some l

/-- Rule R63, its four conditions written on the value of the word (`OP = w / 2^56`, `RSV = w / 2^32 mod 2^24`,
`ARG = w mod 2^32`), and the fault it names, as rule R162 takes it; any other word is one of the eight rows and is
performed. -/
def Obligations.IllegalWordFaultsInEveryPhase : Prop :=
  ∀ (s : State) (w : Cmd) (later : List Cmd) (op rsv arg : Nat), s.hosts = [w :: later] →
    op = w.toNat / 2 ^ 56 → rsv = w.toNat / 2 ^ 32 % 2 ^ 24 → arg = w.toNat % 2 ^ 32 →
    if op = 0 ∨ 9 ≤ op ∨ rsv ≠ 0 ∨ ((op = 1 ∨ op = 6 ∨ op = 7 ∨ op = 8) ∧ arg ≠ 0) ∨ (op = 2 ∧ arg / 2 ^ 8 ≠ 0) ∨
        (op = 3 ∧ arg / 2 ≠ 0) ∨ ((op = 4 ∨ op = 5) ∧ s.cfg.seedEnabled = false) then
      step s = .next { s with
        hosts := [later]
        phase := .fault
        fcode := if s.phase = .fault then s.fcode else .illegalCommand
        resps := s.resps ++ [⟨.fault, .empty⟩] }
    else
      ∃ i, decode w = .ok i ∧ (opcode i).toNat = op ∧ wellFormed s.cfg i = true ∧
        step s = exec i { s with hosts := [later] }

/-! ### The step -/

/-- A step performs the command its host issues: the word is taken from the host and the decoded command is performed on
the state that is left (rules R10, R51, R66). -/
def Obligations.StepPerformsDecodedCommand : Prop :=
  ∀ (s : State) (w : Cmd) (later : List Cmd) (i : Instr), s.hosts = [w :: later] → decode w = .ok i →
    step s = exec i { s with hosts := [later] }

/-- The model's choice (log entry 3): with no command issued a step changes nothing; and rule R52's "A model admits exactly
one host per core and refuses a launch with two" is a refusal at the step (log entry 5). -/
def Obligations.StepIdlesOrRefusesWithoutOneCommand : Prop :=
  (∀ s : State, (s.hosts = [] ∨ s.hosts = [[]]) → step s = .next s) ∧
  (∀ s : State, 2 ≤ s.hosts.length → step s = .refused .severalHosts)

/-- Rules R64 and R65: a command gets exactly one response, a `FAULT` response has no data, and the data of an `OK`
response is what rule R65 lists for the command. -/
def Obligations.EveryCommandGetsOneResponse : Prop :=
  ∀ (s : State) (w : Cmd) (later : List Cmd), s.hosts = [w :: later] →
    ∃ t r, step s = .next t ∧ t.hosts = [later] ∧ t.resps = s.resps ++ [r] ∧
      (r.status = .fault → r.data = .empty) ∧
      (r.status = .ok → ∃ i, decode w = .ok i ∧
        match i with
        | .start => r.data = .empty
        | .append _ => r.data = .empty
        | .seedLenLo _ => r.data = .empty
        | .seedLenHi _ => r.data = .empty
        | .finalize true => r.data = .words [t.acc[0], t.acc[1], t.acc[2], t.acc[3]]
        | .finalize false => ∃ cs, r.data = .chars cs ∧ cs = hexBytes t.acc ∧ cs.length = 32
        | .readStatus => r.data = .words [statusWord s]
        | .readLenLo => ∃ v : Word, r.data = .words [v] ∧ v.toNat = s.len.toNat % 2 ^ 32
        | .readLenHi => ∃ v : Word, r.data = .words [v] ∧ v.toNat = s.len.toNat / 2 ^ 32)

/-- Rules R66 and R164, read together: a response is `FAULT` exactly when the word is illegal, or the command needs an open
session and the phase is not `ACTIVE`. -/
def Obligations.FaultResponseExactlyOnMisuse : Prop :=
  ∀ (s : State) (w : Cmd) (later : List Cmd), s.hosts = [w :: later] →
    ∃ t r, step s = .next t ∧ t.resps = s.resps ++ [r] ∧
      (r.status = .fault ↔
        illegal s.cfg w = true ∨ ∃ i, decode w = .ok i ∧ needsSession i = true ∧ s.phase ≠ .active)

/-- Rule R51: "The result of a sequence of commands is the sequential composition of the rules of its commands". -/
def Obligations.CommandSequencesCompose : Prop :=
  ∀ (ws vs : List Cmd) (s : State),
    issueRun (ws ++ vs) s =
      match issueRun ws s with
      | .next t => issueRun vs t
      | .fault r => .fault r
      | .refused r => .refused r

/-! ### Control commands (`43_control.md`) -/

/-- From rule R140: `START` completes in every phase, opens a session with the values of rule R34 (so that `STATUS` reads 0)
and keeps the buffer; its word is the one the rule gives, and any other word with its opcode is illegal. Two clauses are
the model's: that `START` twice leaves the registers of `START` once follows rule R140 against rule R48 (log entry 15), and
"the only command that leaves `phase = DONE` or `phase = FAULT`" is read as: no other command leads to `ACTIVE` from another
phase (log entry 16; moves out of `FAULT` are also `OnlyStartReopens`). -/
def Obligations.StartOpensSession : Prop :=
  (∀ s : State,
    (∃ t, exec .start s = .next t ∧
      t.acc[0].toNat = 0x67452301 ∧ t.acc[1].toNat = 0xEFCDAB89 ∧ t.acc[2].toNat = 0x98BADCFE ∧
      t.acc[3].toNat = 0x10325476 ∧ t.len.toNat = 0 ∧ t.n.toNat = 0 ∧ t.phase = .active ∧ t.fcode = .none ∧
      t.buf = s.buf ∧ t.cfg = s.cfg ∧ t.hosts = s.hosts ∧ t.resps = s.resps ++ [⟨.ok, .empty⟩] ∧
      statusWord t = 0 ∧ ∃ u, exec .start t = .next u ∧ SameRegisters t u) ∧
    ∀ w : Cmd, w.toNat / 2 ^ 56 = 0x01 →
      (if w.toNat = 0x0100000000000000 then decode w = .ok .start else illegal s.cfg w = true)) ∧
  ∀ (s t : State) (i : Instr), exec i s = .next t → s.phase ≠ .active → t.phase = .active → i = .start

/-- Rules R141 and R142: where seeding executes, one half of `L` takes the operand and everything else stays; a core without
the parameter takes `ILLEGAL_COMMAND` whatever its phase; otherwise `DONE` gives `SEQUENCE_ERROR` and `FAULT` a silent `FAULT`
response; and a word with `RSV != 0` is illegal. -/
def Obligations.SeedingWritesOneHalfOfLength : Prop :=
  (∀ (s : State) (v : Word), s.phase = .active → s.cfg.seedEnabled = true →
    (∃ t, exec (.seedLenLo v) s = .next t ∧ t.len.toNat = s.len.toNat / 2 ^ 32 * 2 ^ 32 + v.toNat ∧
      t = { s with len := t.len, resps := s.resps ++ [⟨.ok, .empty⟩] }) ∧
    (∃ t, exec (.seedLenHi v) s = .next t ∧ t.len.toNat = v.toNat * 2 ^ 32 + s.len.toNat % 2 ^ 32 ∧
      t = { s with len := t.len, resps := s.resps ++ [⟨.ok, .empty⟩] })) ∧
  (∀ (s : State) (v : Word) (i : Instr), i = .seedLenLo v ∨ i = .seedLenHi v →
    (s.cfg.seedEnabled = false → exec i s = .next { s with
      phase := .fault
      fcode := if s.phase = .fault then s.fcode else .illegalCommand
      resps := s.resps ++ [⟨.fault, .empty⟩] }) ∧
    (s.cfg.seedEnabled = true → s.phase = .done → exec i s = .next { s with
      phase := .fault
      fcode := .sequenceError
      resps := s.resps ++ [⟨.fault, .empty⟩] }) ∧
    (s.cfg.seedEnabled = true → s.phase = .fault → exec i s = .next { s with
      resps := s.resps ++ [⟨.fault, .empty⟩] })) ∧
  (∀ (cfg : Config) (w : Cmd), w.toNat / 2 ^ 56 = 0x04 ∨ w.toNat / 2 ^ 56 = 0x05 → w.toNat / 2 ^ 32 % 2 ^ 24 ≠ 0 →
    illegal cfg w = true)

/-- Rules R29 and R143: `READ_STATUS` completes in every phase and returns the word whose fields are those of rule R29,
every reserved bit 0; nothing else changes; any other word with its opcode is illegal. -/
def Obligations.ReadStatusReturnsStatusView : Prop :=
  ∀ s : State,
    (∃ v : Word,
      exec .readStatus s = .next { s with resps := s.resps ++ [⟨.ok, .words [v]⟩] } ∧
      v.extractLsb' 0 6 = s.n ∧
      v.extractLsb' 6 2 = 0 ∧
      v.extractLsb' 8 2 = (match s.phase with | .active => 0 | .done => 1 | .fault => 2) ∧
      v.extractLsb' 10 6 = 0 ∧
      v.extractLsb' 16 4 = (match s.fcode with | .none => 0 | .illegalCommand => 1 | .sequenceError => 2) ∧
      v.extractLsb' 20 12 = 0) ∧
    ∀ w : Cmd, w.toNat / 2 ^ 56 = 0x06 →
      if w.toNat = 0x0600000000000000 then decode w = .ok .readStatus else illegal s.cfg w = true

/-- Rules R144 and R145: the two halves of `L`, in every phase; nothing else changes; any other word with these opcodes is
illegal. -/
def Obligations.ReadLengthReturnsHalves : Prop :=
  ∀ s : State,
    (∃ lo hi : Word,
      exec .readLenLo s = .next { s with resps := s.resps ++ [⟨.ok, .words [lo]⟩] } ∧
      exec .readLenHi s = .next { s with resps := s.resps ++ [⟨.ok, .words [hi]⟩] } ∧
      lo.toNat = s.len.toNat % 2 ^ 32 ∧ hi.toNat = s.len.toNat / 2 ^ 32) ∧
    ∀ w : Cmd, w.toNat / 2 ^ 56 = 0x07 ∨ w.toNat / 2 ^ 56 = 0x08 →
      if w.toNat = 0x0700000000000000 then decode w = .ok .readLenLo
      else if w.toNat = 0x0800000000000000 then decode w = .ok .readLenHi
      else illegal s.cfg w = true

/-- Rule R69: `SEED_LEN v` makes `L` equal to `v`, changes no other register, and the two length reads then return its
halves. -/
def Obligations.SeedLengthThenReadBack : Prop :=
  ∀ (s : State) (v : Len), s.phase = .active → s.cfg.seedEnabled = true →
    ∃ t lo hi, issueRun (assemble [.seedLen v, .cmd .readLenLo, .cmd .readLenHi]) s = .next t ∧
      SameRegisters { s with len := v } t ∧
      t.resps = s.resps ++ [⟨.ok, .empty⟩, ⟨.ok, .empty⟩, ⟨.ok, .words [lo]⟩, ⟨.ok, .words [hi]⟩] ∧
      lo.toNat = v.toNat % 2 ^ 32 ∧ hi.toNat = v.toNat / 2 ^ 32

/-! ### Absorbing bytes (`41_absorb.md`) -/

/-- Rules R100, R101 and R102: where `APPEND` executes, the byte lands in `buf[n]` and no other byte changes; `n` advances, and
when it reaches 64 the whole buffer is compressed, `L` advances by 64 modulo 2^64 and `n` returns to 0. In `DONE` it raises
`SEQUENCE_ERROR`, in `FAULT` it is answered `FAULT`, and a word with `ARG[31:8] != 0` or `RSV != 0` is illegal. -/
def Obligations.AppendAbsorbsOneByte : Prop :=
  (∀ (s : State) (b : Byte), s.phase = .active →
    ∃ t, exec (.append b) s = .next t ∧
      (∀ i : Fin 64, t.buf[i] = if i.val = s.n.toNat then b else s.buf[i]) ∧
      (if s.n.toNat + 1 = 64 then
        t.n.toNat = 0 ∧ t.acc = compress s.acc t.buf ∧ t.len.toNat = (s.len.toNat + 64) % 2 ^ 64
      else
        t.n.toNat = s.n.toNat + 1 ∧ t.acc = s.acc ∧ t.len = s.len) ∧
      t.phase = .active ∧ t.fcode = s.fcode ∧ t.cfg = s.cfg ∧ t.hosts = s.hosts ∧
      t.resps = s.resps ++ [⟨.ok, .empty⟩]) ∧
  (∀ (s : State) (b : Byte),
    (s.phase = .done → exec (.append b) s = .next { s with
      phase := .fault
      fcode := .sequenceError
      resps := s.resps ++ [⟨.fault, .empty⟩] }) ∧
    (s.phase = .fault → exec (.append b) s = .next { s with resps := s.resps ++ [⟨.fault, .empty⟩] })) ∧
  (∀ (cfg : Config) (w : Cmd), w.toNat / 2 ^ 56 = 0x02 →
    if w.toNat % 2 ^ 56 < 256 then decode w = .ok (.append (BitVec.ofNat 8 w.toNat)) else illegal cfg w = true)

/-- Rule R104 (the spec's own derivation, "[derived: from rules R100, R101, R102 …]"), through the real step: `START` and one
`APPEND` per byte of `m`, from any state whatever. -/
def Obligations.AbsorbedMessageState : Prop :=
  ∀ (s : State) (m : List Byte),
    ∃ t, issueRun (assemble [.cmd .start, .appendBytes m]) s = .next t ∧
      t.n.toNat = m.length % 64 ∧
      t.len = BitVec.ofNat 64 (64 * (m.length / 64)) ∧
      t.acc = digestOfBlocks m ∧
      (∀ i : Fin 64, i.val < m.length % 64 → m[64 * (m.length / 64) + i.val]? = some t.buf[i]) ∧
      t.phase = .active ∧ t.fcode = .none ∧ t.cfg = s.cfg

/-- Rule R103 (the spec's own derivation): the calls a message is split into, and reads between its bytes, leave no trace in
the registers; only the bytes and their order count. -/
def Obligations.SplittingAndReadsDoNotMatter : Prop :=
  ∀ (s : State) (is : List Instr), (∀ i ∈ is, isAppend i = true ∨ isRead i = true) →
    ∃ t u, issueRun (is.map encode) s = .next t ∧ issueRun ((is.filter isAppend).map encode) s = .next u ∧
      SameRegisters t u

/-! ### The compression function (`40_compression.md`) -/

/-- Rule R8: the rotation is the two logical shifts joined, modulo 2^32, and it is circular. -/
def Obligations.RotationIsCircular : Prop :=
  ∀ (x : Word) (s : Nat), 1 ≤ s → s ≤ 31 →
    (rotl32 x s).toNat = x.toNat * 2 ^ s % 2 ^ 32 + x.toNat / 2 ^ (32 - s) ∧ rotl32 x s = x.rotateLeft s

/-- Rules R80 to R83 (the spec's supply from general knowledge), bit by bit: `F` selects by `x`, `G` by `z`, `H` is parity, and
`I` flips `y` where `x` or not `z` holds. -/
def Obligations.RoundFunctionsBitwise : Prop :=
  ∀ (x y z : Word) (k : Nat), k < 32 →
    (roundF x y z).getLsbD k = (if x.getLsbD k then y.getLsbD k else z.getLsbD k) ∧
    (roundG x y z).getLsbD k = (if z.getLsbD k then x.getLsbD k else y.getLsbD k) ∧
    (roundH x y z).getLsbD k = ((x.getLsbD k != y.getLsbD k) != z.getLsbD k) ∧
    (roundI x y z).getLsbD k = (y.getLsbD k != (x.getLsbD k || !z.getLsbD k))

/-- The four columns of the table of rule R85 (the spec's supply from general knowledge, log entry 8): the round function `fn`,
written out from rules R80 to R83, and `g(i)`, `s(i)` and `K[i]`, row by row. -/
def Obligations.StepParametersAreTheTable : Prop :=
  (List.range 64).map (fun i => (msgIndex i).val) =
    [0, 1, 2, 3, 4, 5, 6, 7, 8, 9, 10, 11, 12, 13, 14, 15] ++
    [1, 6, 11, 0, 5, 10, 15, 4, 9, 14, 3, 8, 13, 2, 7, 12] ++
    [5, 8, 11, 14, 1, 4, 7, 10, 13, 0, 3, 6, 9, 12, 15, 2] ++
    [0, 7, 14, 5, 12, 3, 10, 1, 8, 15, 6, 13, 4, 11, 2, 9] ∧
  (List.range 64).map shiftAmount =
    [7, 12, 17, 22, 7, 12, 17, 22, 7, 12, 17, 22, 7, 12, 17, 22] ++
    [5, 9, 14, 20, 5, 9, 14, 20, 5, 9, 14, 20, 5, 9, 14, 20] ++
    [4, 11, 16, 23, 4, 11, 16, 23, 4, 11, 16, 23, 4, 11, 16, 23] ++
    [6, 10, 15, 21, 6, 10, 15, 21, 6, 10, 15, 21, 6, 10, 15, 21] ∧
  (List.range 64).map stepConstant =
    [0xd76aa478, 0xe8c7b756, 0x242070db, 0xc1bdceee, 0xf57c0faf, 0x4787c62a, 0xa8304613, 0xfd469501] ++
    [0x698098d8, 0x8b44f7af, 0xffff5bb1, 0x895cd7be, 0x6b901122, 0xfd987193, 0xa679438e, 0x49b40821] ++
    [0xf61e2562, 0xc040b340, 0x265e5a51, 0xe9b6c7aa, 0xd62f105d, 0x02441453, 0xd8a1e681, 0xe7d3fbc8] ++
    [0x21e1cde6, 0xc33707d6, 0xf4d50d87, 0x455a14ed, 0xa9e3e905, 0xfcefa3f8, 0x676f02d9, 0x8d2a4c8a] ++
    [0xfffa3942, 0x8771f681, 0x6d9d6122, 0xfde5380c, 0xa4beea44, 0x4bdecfa9, 0xf6bb4b60, 0xbebfbc70] ++
    [0x289b7ec6, 0xeaa127fa, 0xd4ef3085, 0x04881d05, 0xd9d4d039, 0xe6db99e5, 0x1fa27cf8, 0xc4ac5665] ++
    [0xf4292244, 0x432aff97, 0xab9423a7, 0xfc93a039, 0x655b59c3, 0x8f0ccc92, 0xffeff47d, 0x85845dd1] ++
    [0x6fa87e4f, 0xfe2ce6e0, 0xa3014314, 0x4e0811a1, 0xf7537e82, 0xbd3af235, 0x2ad7d2bb, 0xeb86d391] ∧
  ∀ (i : Nat) (x y z : Word), i < 64 → stepFn i x y z =
    if i < 16 then (x &&& y) ||| (~~~x &&& z)
    else if i < 32 then (x &&& z) ||| (y &&& ~~~z)
    else if i < 48 then x ^^^ y ^^^ z
    else y ^^^ (x ||| ~~~z)

/-- Rule R42: the first byte of each group of four is the least significant byte of the message word. -/
def Obligations.MessageWordsAreLittleEndian : Prop :=
  ∀ (blk : Block) (j : Fin 16),
    (bufRead blk j).toNat =
      blk[4 * j.val].toNat + 2 ^ 8 * blk[4 * j.val + 1].toNat + 2 ^ 16 * blk[4 * j.val + 2].toNat +
        2 ^ 24 * blk[4 * j.val + 3].toNat

/-- Rules R86 to R88 (the step update is the spec's supply from general knowledge; the feed-forward is the source's): 64 steps
from the accumulator, each the sum, rotation and register turn of rule R86 in numbers modulo 2^32, then one wrapping
addition per word. -/
def Obligations.CompressIsStepsThenFeedForward : Prop :=
  ∀ (h : Acc) (blk : Block), ∃ q : Nat → Quad,
    q 0 = ⟨h[0], h[1], h[2], h[3]⟩ ∧
    (∀ i, i < 64 → ∃ t : Word,
      t.toNat = ((q i).a.toNat + (stepFn i (q i).b (q i).c (q i).d).toNat + (stepConstant i).toNat +
        (bufRead blk (msgIndex i)).toNat) % 2 ^ 32 ∧
      (q (i + 1)).a = (q i).d ∧
      (q (i + 1)).b.toNat = ((q i).b.toNat + (t.rotateLeft (shiftAmount i)).toNat) % 2 ^ 32 ∧
      (q (i + 1)).c = (q i).b ∧
      (q (i + 1)).d = (q i).c) ∧
    (compress h blk)[0].toNat = (h[0].toNat + (q 64).a.toNat) % 2 ^ 32 ∧
    (compress h blk)[1].toNat = (h[1].toNat + (q 64).b.toNat) % 2 ^ 32 ∧
    (compress h blk)[2].toNat = (h[2].toNat + (q 64).c.toNat) % 2 ^ 32 ∧
    (compress h blk)[3].toNat = (h[3].toNat + (q 64).d.toNat) % 2 ^ 32

/-- Every step of rule R86 can be undone when the message words are known, so two working states never meet (derived: from
the step update, the spec's supply from general knowledge). -/
def Obligations.CompressionStepsAreInjective : Prop :=
  ∀ (m : Fin 16 → Word) (k : Nat) (q q' : Quad), compressSteps m q k = compressSteps m q' k → q = q'

/-- The vectors V6 of `95_test_vectors.md`. -/
def Obligations.CompressSpecVectors : Prop :=
  compress iv (Vector.replicate 64 0x00) = #v[0x031F1DAC, 0x6EA58ED0, 0x1FAB67B7, 0x74317791] ∧
  compress iv (Vector.ofFn fun i => BitVec.ofNat 8 i.val) = #v[0x9144D9CA, 0xD901E4C9, 0x72FC5B38, 0x625FF51E]

/-! ### Finalization (`42_finalize.md`) -/

/-- Rules R120 to R126, R128, R36 and R43: where `FINALIZE` executes, it records the length, pads the message tail (`pad`), for
`n > 55` compresses that block and goes on with zeros, puts the little-endian bit-length into the last eight bytes (`last`),
compresses once more, ends the session and answers the digest; `n` and `fcode` keep their values. In `DONE` it raises
`SEQUENCE_ERROR`, in `FAULT` it is answered `FAULT`, and a word with `ARG[31:1] != 0` or `RSV != 0` is illegal. -/
def Obligations.FinalizeClosesMessage : Prop :=
  (∀ (s : State) (raw : Bool), s.phase = .active →
    ∃ (t : State) (pad last : Block), exec (.finalize raw) s = .next t ∧
      t.len.toNat = (s.len.toNat + s.n.toNat) % 2 ^ 64 ∧
      (∀ i : Fin 64, pad[i] =
        if i.val < s.n.toNat then s.buf[i] else if i.val = s.n.toNat then 0x80 else 0x00) ∧
      (∀ i : Fin 64, last[i] =
        if 56 ≤ i.val then BitVec.ofNat 8 (8 * t.len.toNat / 256 ^ (i.val - 56))
        else if 55 < s.n.toNat then 0x00
        else pad[i]) ∧
      t.acc = (if 55 < s.n.toNat then compress (compress s.acc pad) last else compress s.acc last) ∧
      t.buf = last ∧ t.n = s.n ∧ t.phase = .done ∧ t.fcode = s.fcode ∧ t.cfg = s.cfg ∧ t.hosts = s.hosts ∧
      t.resps = s.resps ++
        [⟨.ok, if raw then .words [t.acc[0], t.acc[1], t.acc[2], t.acc[3]] else .chars (hexBytes t.acc)⟩]) ∧
  (∀ (s : State) (raw : Bool),
    (s.phase = .done → exec (.finalize raw) s = .next { s with
      phase := .fault
      fcode := .sequenceError
      resps := s.resps ++ [⟨.fault, .empty⟩] }) ∧
    (s.phase = .fault → exec (.finalize raw) s = .next { s with resps := s.resps ++ [⟨.fault, .empty⟩] })) ∧
  (∀ (cfg : Config) (w : Cmd), w.toNat / 2 ^ 56 = 0x03 →
    if w.toNat = 0x0300000000000000 then decode w = .ok (.finalize false)
    else if w.toNat = 0x0300000000000001 then decode w = .ok (.finalize true)
    else illegal cfg w = true)

/-- Rule R44: the digest bytes, the words `A, B, C, D` in order, each with its least significant byte first; the raw output
gives the words themselves. -/
def Obligations.DigestBytesAreLittleEndian : Prop :=
  ∀ h : Acc, (digestBytes h).length = 16 ∧
    (∀ k : Fin 16, ∃ v : Byte, (digestBytes h)[k.val]? = some v ∧
      v.toNat = h[k.val / 4].toNat / 2 ^ (8 * (k.val % 4)) % 256) ∧
    digestData true h = .words [h[0], h[1], h[2], h[3]]

/-- Rules R44 and R127: 32 character codes; digest byte `k` is byte `k mod 4` of word `k div 4` of `A, B, C, D`, and its high
digit comes before its low digit (the digit order and the ASCII codes are the spec's supply from general knowledge). -/
def Obligations.HexDigestCharacters : Prop :=
  ∀ h : Acc, (hexBytes h).length = 32 ∧
    ∀ (k : Fin 16) (v : Word) (digit : Nat → Byte), h[k.val / 4] = v →
      (∀ d, digit d = BitVec.ofNat 8 (if d < 10 then 0x30 + d else 0x61 + d - 10)) →
      (hexBytes h)[2 * k.val]? = some (digit (v.toNat / 2 ^ (8 * (k.val % 4)) % 256 / 16)) ∧
      (hexBytes h)[2 * k.val + 1]? = some (digit (v.toNat / 2 ^ (8 * (k.val % 4)) % 256 % 16))

/-- The hexadecimal digest loses nothing: two accumulators with the same 32 characters are the same (derived: from rules R44
and R127). -/
def Obligations.HexDigestDeterminesWords : Prop :=
  ∀ h h' : Acc, hexBytes h = hexBytes h' → h = h'

/-- Rule R129 (the spec's own derivation): from the same state the two forms leave the same state but for the response, and
the hexadecimal data is the rendering of the raw words. -/
def Obligations.RawAndHexDigestsAgree : Prop :=
  ∀ s : State, s.phase = .active →
    ∃ t : State,
      exec (.finalize true) s = .next { t with resps := s.resps ++ [⟨.ok, .words [t.acc[0], t.acc[1], t.acc[2], t.acc[3]]⟩] } ∧
      exec (.finalize false) s = .next { t with resps := s.resps ++ [⟨.ok, .chars (hexBytes t.acc)⟩] }

/-- Rule R131 (the spec's own derivation), the headline: from any state, faulted or not, the host that issues `HASH` for a
message `m` of any length gets `OK` to every command, and the last response is the digest of the standard padded
message. -/
def Obligations.HashReturnsDigestOfPaddedMessage : Prop :=
  ∀ (s : State) (m : List Byte) (raw : Bool),
    ∃ t, issueRun (assemble [.hash raw m]) s = .next t ∧
      t.acc = md5 m ∧ t.phase = .done ∧ t.len = BitVec.ofNat 64 m.length ∧ t.n.toNat = m.length % 64 ∧
      t.resps = s.resps ++ List.replicate (m.length + 1) ⟨.ok, .empty⟩ ++
        [⟨.ok, if raw then .words (accWords (md5 m)) else .chars (hexBytes (md5 m))⟩]

/-- The example of rule R126 and vector V1: the first command after reset, `FINALIZE raw`, returns the digest of the empty
message. -/
def Obligations.EmptyMessageDigestAfterReset : Prop :=
  ∃ t, step (State.reset.withFetchWord 64 0x0300000000000001) = .next t ∧
    t.resps = [⟨.ok, .words [0xD98C1DD4, 0x04B2008F, 0x980980E9, 0x7E42F8EC]⟩]

/-! ### Faults (`60_exceptions.md`) -/

/-- Rule R128: `FINALIZE` ends the session; after it `APPEND`, `FINALIZE` and `SEED_LEN_*` (where the core has it) raise
`SEQUENCE_ERROR`, with the registers as rule R162 leaves them, while `READ_*` and `START` are accepted. -/
def Obligations.DoneRefusesSessionCommands : Prop :=
  (∀ (s : State) (raw : Bool), s.phase = .active → ∃ t, exec (.finalize raw) s = .next t ∧ t.phase = .done) ∧
  (∀ (s : State) (i : Instr), s.phase = .done → wellFormed s.cfg i = true →
    if needsSession i = true then
      exec i s = .next { s with
        phase := .fault
        fcode := .sequenceError
        resps := s.resps ++ [⟨.fault, .empty⟩] }
    else ∃ t r, exec i s = .next t ∧ t.resps = s.resps ++ [r] ∧ r.status = .ok)

/-- Rule R163: in `FAULT` the session commands change no register, `fcode` included; reads answer `OK` and change no register;
and an illegal word keeps the first code. -/
def Obligations.FaultPhaseIsSticky : Prop :=
  (∀ (s : State) (i : Instr), s.phase = .fault → wellFormed s.cfg i = true → needsSession i = true →
    exec i s = .next { s with resps := s.resps ++ [⟨.fault, .empty⟩] }) ∧
  (∀ (s : State) (i : Instr), s.phase = .fault → isRead i = true →
    ∃ d, exec i s = .next { s with resps := s.resps ++ [⟨.ok, d⟩] }) ∧
  (∀ (s : State) (w : Cmd) (later : List Cmd), s.phase = .fault → s.hosts = [w :: later] → illegal s.cfg w = true →
    step s = .next { s with hosts := [later], resps := s.resps ++ [⟨.fault, .empty⟩] })

/-- Rules R161, R162 and R164 over the whole machine: a command that is answered `FAULT` changes no register but `phase` and
`fcode`; it leaves the phase `FAULT`, with the first code kept, and otherwise with `ILLEGAL_COMMAND` for an illegal word and
`SEQUENCE_ERROR` for a legal one. -/
def Obligations.FaultsArePrecise : Prop :=
  ∀ (s t : State) (w : Cmd) (later : List Cmd), s.hosts = [w :: later] → step s = .next t →
    t.resps = s.resps ++ [⟨.fault, .empty⟩] →
    t = { s with
      hosts := [later]
      phase := .fault
      fcode := if s.phase = .fault then s.fcode else if illegal s.cfg w = true then .illegalCommand else .sequenceError
      resps := s.resps ++ [⟨.fault, .empty⟩] }

/-- Rule R166: `START` returns from `FAULT` and from `DONE`; no other word takes a core out of `FAULT`, or from `DONE` back to
`ACTIVE`; and a fault in `FAULT` does not change `fcode`. -/
def Obligations.OnlyStartReopens : Prop :=
  (∀ s : State, ∃ t, exec .start s = .next t ∧ t.phase = .active ∧ t.fcode = .none) ∧
  (∀ (s t : State) (w : Cmd) (later : List Cmd), s.hosts = [w :: later] → step s = .next t →
    (s.phase = .fault ∧ t.phase ≠ .fault ∨ s.phase = .done ∧ t.phase = .active) → w = 0x0100000000000000) ∧
  (∀ (s t : State) (w : Cmd) (later : List Cmd), s.phase = .fault → s.hosts = [w :: later] →
    step s = .next t → t.resps = s.resps ++ [⟨.fault, .empty⟩] → t.phase = .fault ∧ t.fcode = s.fcode)

/-- Rules R162 and R166 over runs: whatever a host issues short of `START`, a faulted core keeps every register, the first
fault code among them. -/
def Obligations.FirstFaultCodeIsKept : Prop :=
  ∀ (s : State) (ws : List Cmd), s.phase = .fault → (∀ w ∈ ws, w ≠ 0x0100000000000000) →
    ∃ t, issueRun ws s = .next t ∧ SameRegisters s t

/-! ### Invariants and whole-machine rules (`10_state.md`, `70_reset_and_hazards.md`) -/

/-- Rule R34: the values after power-on reset, for every parameter and every draw of the buffer, and the same values after
`START`, which leaves the buffer unchanged. -/
def Obligations.PowerOnAndStartValues : Prop :=
  ∀ (s : State) (cfg : Config) (draw : Block), ∃ t, exec .start s = .next t ∧ t.buf = s.buf ∧
    (State.powerOn cfg draw).buf = draw ∧
    ∀ u, u = State.powerOn cfg draw ∨ u = t →
      u.acc = #v[0x67452301, 0xEFCDAB89, 0x98BADCFE, 0x10325476] ∧
      u.n = 0 ∧ u.len = 0 ∧ u.phase = .active ∧ u.fcode = .none

/-- The model's named reset is a power-on with the default parameter and a buffer of zeros (the model's choices, log entries 1
and 2); the invariants below hold at every power-on. -/
def Obligations.ResetMeetsInvariants : Prop :=
  State.reset = State.powerOn ⟨true⟩ (Vector.replicate 64 0x00) ∧
  ∀ (cfg : Config) (draw : Block), Coherent (State.powerOn cfg draw) ∧ LengthAligned (State.powerOn cfg draw) ∧
    Clean (State.powerOn cfg draw) ∧ statusWord (State.powerOn cfg draw) = 0

/-- Rule R35 (the spec's own derivation), its second clause: every step keeps "`fcode = 0` if and only if `phase != FAULT`". -/
def Obligations.StepKeepsFaultCodeCoherent : Prop :=
  ∀ s t : State, Coherent s → step s = .next t → Coherent t

/-- Rule R35 (the spec's own derivation), its last clause: every step but a seeding command keeps `L` a multiple of 64 while the
phase is `ACTIVE`. -/
def Obligations.StepKeepsLengthAlignedUnlessSeeded : Prop :=
  ∀ s t : State, LengthAligned s → step s = .next t →
    (∀ (w : Cmd) (later : List Cmd) (i : Instr), s.hosts = [w :: later] → decode w = .ok i → isSeed i = false) →
    LengthAligned t

/-- A step completes for one host that issues a command (rules R47 and R160 read together) and is refused only for a second
host (rule R52). The model's choices: that a step also completes where there is no host or no command (log entry 3), that the
refusal stands at the step and is named `severalHosts` where rule R52 speaks of a launch (log entry 5), and that the parameter
is a field which no step writes (log entry 2). -/
def Obligations.StepIsTotalForOneHost : Prop :=
  ∀ s : State, (s.hosts.length ≤ 1 → ∃ t, step s = .next t ∧ t.cfg = s.cfg ∧ t.hosts.length = s.hosts.length) ∧
    (∀ r, step s = .refused r → r = .severalHosts ∧ 2 ≤ s.hosts.length)

/-- Rule R21, command by command: `START` loads the initialization vector; within a session `APPEND` compresses the drained
block once, and `FINALIZE` the image of the last block, over the padded buffer or, for `n > 55`, over zeros after a
compression of the padded buffer; every other command, an illegal word and a step without a command (log entry 3) leave the
accumulator as it was. -/
def Obligations.AccumulatorWriters : Prop :=
  (∀ (s t : State) (w : Cmd) (later : List Cmd) (i : Instr) (l : Len) (image : Block → Block),
    s.hosts = [w :: later] → decode w = .ok i → step s = .next t →
    l.toNat = (s.len.toNat + s.n.toNat) % 2 ^ 64 →
    (∀ blk, image blk = bufWrite (bufWrite blk 14 (lenLo (bitLength l))) 15 (lenHi (bitLength l))) →
    t.acc =
      match i with
      | .start => #v[0x67452301, 0xEFCDAB89, 0x98BADCFE, 0x10325476]
      | .append b => if s.phase = .active ∧ s.n.toNat = 63 then compress s.acc (bufSet s.buf s.n b) else s.acc
      | .finalize _ =>
        if s.phase = .active then
          if 55 < s.n.toNat then compress (compress s.acc (bufPad s.buf s.n)) (image zeroBlock)
          else compress s.acc (image (bufPad s.buf s.n))
        else s.acc
      | .seedLenLo _ => s.acc
      | .seedLenHi _ => s.acc
      | .readStatus => s.acc
      | .readLenLo => s.acc
      | .readLenHi => s.acc) ∧
  (∀ s t : State, step s = .next t → (∀ w later i, s.hosts = [w :: later] → decode w ≠ .ok i) → t.acc = s.acc)

/-- Rules R23 and R40: only `APPEND` and `FINALIZE` in an open session write the buffer, `APPEND` at index `n` alone and
`FINALIZE` not below `n` while the message tail is still in its block. -/
def Obligations.BufferWriters : Prop :=
  ∀ (s t : State) (k : Fin 64), step s = .next t → t.buf[k] ≠ s.buf[k] →
    s.phase = .active ∧ ∃ w later i, s.hosts = [w :: later] ∧ decode w = .ok i ∧
      ((∃ b, i = .append b ∧ k.val = s.n.toNat ∧ t.buf[k] = b) ∨
        (∃ raw, i = .finalize raw ∧ (s.n.toNat ≤ k.val ∨ 55 < s.n.toNat)))

/-- Rule R48: reads have no side effects and may be repeated with the same result. -/
def Obligations.ReadsHaveNoSideEffects : Prop :=
  ∀ (s : State) (i : Instr), isRead i = true →
    ∃ v : Word, ∃ t, exec i s = .next t ∧ t = { s with resps := s.resps ++ [⟨.ok, .words [v]⟩] } ∧
      exec i t = .next { s with resps := s.resps ++ [⟨.ok, .words [v]⟩, ⟨.ok, .words [v]⟩] }

/-- Rule R33 (the spec's own derivation): "the stale bytes `buf[n..63]`, which no rule reads before writing them". Two cores that
differ in stale bytes alone take the same steps, give the same responses and differ in stale bytes alone ever after. -/
def Obligations.StaleBytesAreNeverObserved : Prop :=
  ∀ (k : Nat) (s t : State), SameButStale s t →
    match Sys2Proof.core.run k s, Sys2Proof.core.run k t with
    | .next s', .next t' => SameButStale s' t'
    | .refused r, .refused r' => r = r'
    | _, _ => False

/-- Rule R180: power-on reset leaves the registers `START` produces, and "no rule reads it before writing it": the power-on draw
of the buffer changes no response and no register but the buffer; so the zeros of log entry 1 carry no claim. -/
def Obligations.PowerOnDrawIsNeverObserved : Prop :=
  ∀ (cfg : Config) (draw draw' : Block) (ws : List Cmd),
    (∃ u, exec .start (State.powerOn cfg draw) = .next u ∧ SameRegisters u (State.powerOn cfg draw)) ∧
    ∃ t t', issueRun ws (State.powerOn cfg draw) = .next t ∧ issueRun ws (State.powerOn cfg draw') = .next t' ∧
      t.resps = t'.resps ∧ t.acc = t'.acc ∧ t.n = t'.n ∧ t.len = t'.len ∧ t.phase = t'.phase ∧ t.fcode = t'.fcode

/-- Rules R37 and R170: one core's step changes no other core's state, and it is the step the core would take alone. -/
def Obligations.CoresShareNothing : Prop :=
  ∀ (p p' : Platform) (k : Fin p.cores.length), platformStep p k = .next p' →
    p'.cores.length = p.cores.length ∧ (∃ s, step p.cores[k] = .next s ∧ p'.cores[k.val]? = some s) ∧
    ∀ j : Nat, j ≠ k.val → p'.cores[j]? = p.cores[j]?

/-! ### Repetition -/

/-- Rules R48 and R183 beside rules R140 to R142: what issuing a command again does. Every command is answered again. `APPEND`
at once again adds its byte twice, and `FINALIZE` at once again is a `SEQUENCE_ERROR`. `START` again later in the session
discards the bytes absorbed meanwhile, and `SEED_LEN_*` again after a drain undoes what the drain added to its half. The
model's choice (log entry 15, rule R140 against rule R48): `START` and `SEED_LEN_*` at once again leave the same registers. -/
def Obligations.RepetitionActsAgain : Prop :=
  (∀ (s t u : State) (i : Instr), exec i s = .next t → exec i t = .next u →
    ∃ r r', t.resps = s.resps ++ [r] ∧ u.resps = s.resps ++ [r, r'] ∧ u ≠ t) ∧
  (∀ (s : State) (b : Byte), s.phase = .active → s.n.toNat ≤ 61 →
    ∃ t u, exec (.append b) s = .next t ∧ exec (.append b) t = .next u ∧
      u.n.toNat = s.n.toNat + 2 ∧ ∀ k : Fin 64, k.val = s.n.toNat ∨ k.val = s.n.toNat + 1 → u.buf[k] = b) ∧
  (∀ (s : State) (raw : Bool), s.phase = .active →
    ∃ t u, exec (.finalize raw) s = .next t ∧ exec (.finalize raw) t = .next u ∧
      t.phase = .done ∧ u.phase = .fault ∧ u.fcode = .sequenceError) ∧
  (∀ (s : State) (b : Byte),
    ∃ t u, issueRun (assemble [.cmd .start, .cmd (.append b)]) s = .next t ∧
      issueRun (assemble [.cmd .start, .cmd (.append b), .cmd .start]) s = .next u ∧ t.n.toNat = 1 ∧ u.n.toNat = 0) ∧
  (∀ (s : State) (b : Byte) (v : Word), s.phase = .active → s.cfg.seedEnabled = true → s.n.toNat = 63 →
    ∃ t u, issueRun (assemble [.cmd (.seedLenLo v), .cmd (.append b)]) s = .next t ∧
      issueRun (assemble [.cmd (.seedLenLo v), .cmd (.append b), .cmd (.seedLenLo v)]) s = .next u ∧
      t.len.toNat % 2 ^ 32 = (v.toNat + 64) % 2 ^ 32 ∧ u.len.toNat % 2 ^ 32 = v.toNat) ∧
  (∀ (s : State) (b : Byte) (v : Word), s.phase = .active → s.cfg.seedEnabled = true → s.n.toNat = 63 →
    2 ^ 32 ≤ s.len.toNat % 2 ^ 32 + 64 →
    ∃ t u, issueRun (assemble [.cmd (.seedLenHi v), .cmd (.append b)]) s = .next t ∧
      issueRun (assemble [.cmd (.seedLenHi v), .cmd (.append b), .cmd (.seedLenHi v)]) s = .next u ∧
      t.len.toNat / 2 ^ 32 = (v.toNat + 1) % 2 ^ 32 ∧ u.len.toNat / 2 ^ 32 = v.toNat) ∧
  (∀ (s t u : State) (i : Instr), i = .start ∨ isSeed i = true → exec i s = .next t → exec i t = .next u →
    SameRegisters t u)
end

