-- ==== Sys2Proof/Laws/Operands.lean ====
section
/-! SUPPORT. The values of the operand forms as numbers, and which of them undo which. -/

namespace Sys2Proof.Machine

theorem toNat_append_eq {n m : Nat} (x : BitVec n) (y : BitVec m) :
    (x ++ y).toNat = x.toNat * 2 ^ m + y.toNat := by
  rw [BitVec.toNat_append, Nat.shiftLeft_eq, Nat.mul_comm, ← Nat.two_pow_add_eq_or_of_lt y.isLt]

theorem toNat_extract_eq {n : Nat} (x : BitVec n) (k m : Nat) :
    (x.extractLsb' k m).toNat = x.toNat / 2 ^ k % 2 ^ m := by
  rw [BitVec.extractLsb'_toNat, Nat.shiftRight_eq_div_pow]

theorem opField_toNat (w : Cmd) : (opField w).toNat = w.toNat / 2 ^ 56 := by
  have := w.isLt
  rw [opField, toNat_extract_eq]; omega

theorem rsvField_toNat (w : Cmd) : (rsvField w).toNat = w.toNat / 2 ^ 32 % 2 ^ 24 := toNat_extract_eq w 32 24

theorem argField_toNat (w : Cmd) : (argField w).toNat = w.toNat % 2 ^ 32 := by
  rw [argField, toNat_extract_eq]; omega

theorem packCmd_toNat (o : Byte) (r : BitVec 24) (a : Word) :
    (packCmd o r a).toNat = o.toNat * 2 ^ 56 + r.toNat * 2 ^ 32 + a.toNat := by
  rw [packCmd, toNat_append_eq, toNat_append_eq]; omega

theorem opField_packCmd (o : Byte) (r : BitVec 24) (a : Word) : opField (packCmd o r a) = o := by
  apply BitVec.eq_of_toNat_eq
  rw [opField_toNat, packCmd_toNat]; omega

theorem rsvField_packCmd (o : Byte) (r : BitVec 24) (a : Word) : rsvField (packCmd o r a) = r := by
  apply BitVec.eq_of_toNat_eq
  rw [rsvField_toNat, packCmd_toNat]; omega

theorem argField_packCmd (o : Byte) (r : BitVec 24) (a : Word) : argField (packCmd o r a) = a := by
  apply BitVec.eq_of_toNat_eq
  rw [argField_toNat, packCmd_toNat]; omega

theorem packCmd_fields (w : Cmd) : packCmd (opField w) (rsvField w) (argField w) = w := by
  apply BitVec.eq_of_toNat_eq
  rw [packCmd_toNat, opField_toNat, rsvField_toNat, argField_toNat]; omega

theorem byteOperand_toNat (a : Word) : (byteOperand a).toNat = a.toNat % 2 ^ 8 := by
  rw [byteOperand, toNat_extract_eq]; omega

theorem aboveByte_toNat (a : Word) : (aboveByte a).toNat = a.toNat / 2 ^ 8 := by
  rw [aboveByte, toNat_extract_eq]; omega

theorem aboveFlag_toNat (a : Word) : (aboveFlag a).toNat = a.toNat / 2 := by
  rw [aboveFlag, toNat_extract_eq]; omega

theorem argOfByte_toNat (b : Byte) : (argOfByte b).toNat = b.toNat := by
  rw [argOfByte, toNat_append_eq]; simp

theorem argOfFlag_toNat (r : Bool) : (argOfFlag r).toNat = r.toNat := by cases r <;> rfl

theorem rawOperand_toNat (a : Word) : (rawOperand a).toNat = a.toNat % 2 := by
  rw [rawOperand, BitVec.getLsbD, Nat.testBit_zero]
  rcases Nat.mod_two_eq_zero_or_one a.toNat with h | h <;> simp [h]

theorem byteOperand_argOfByte (b : Byte) : byteOperand (argOfByte b) = b := by
  apply BitVec.eq_of_toNat_eq
  rw [byteOperand_toNat, argOfByte_toNat]; omega

theorem aboveByte_argOfByte (b : Byte) : aboveByte (argOfByte b) = 0 := by
  apply BitVec.eq_of_toNat_eq
  rw [aboveByte_toNat, argOfByte_toNat]
  have := b.isLt
  simp; omega

theorem argOfByte_byteOperand (a : Word) (h : aboveByte a = 0) : argOfByte (byteOperand a) = a := by
  apply BitVec.eq_of_toNat_eq
  have h' := aboveByte_toNat a
  rw [h] at h'
  rw [argOfByte_toNat, byteOperand_toNat]
  simp at h'; omega

theorem rawOperand_argOfFlag (r : Bool) : rawOperand (argOfFlag r) = r := by cases r <;> rfl

theorem aboveFlag_argOfFlag (r : Bool) : aboveFlag (argOfFlag r) = 0 := by cases r <;> rfl

theorem argOfFlag_rawOperand (a : Word) (h : aboveFlag a = 0) : argOfFlag (rawOperand a) = a := by
  apply BitVec.eq_of_toNat_eq
  have h' := aboveFlag_toNat a
  rw [h] at h'
  rw [argOfFlag_toNat, rawOperand_toNat]
  simp at h'; omega

theorem lenLo_toNat (l : Len) : (lenLo l).toNat = l.toNat % 2 ^ 32 := by
  rw [lenLo, toNat_extract_eq]; omega
theorem lenHi_toNat (l : Len) : (lenHi l).toNat = l.toNat / 2 ^ 32 := by
  rw [lenHi, toNat_extract_eq]; omega
theorem withLenLo_toNat (l : Len) (v : Word) : (withLenLo l v).toNat = l.toNat / 2 ^ 32 * 2 ^ 32 + v.toNat := by
  rw [withLenLo, toNat_append_eq, lenHi_toNat]
theorem withLenHi_toNat (l : Len) (v : Word) : (withLenHi l v).toNat = v.toNat * 2 ^ 32 + l.toNat % 2 ^ 32 := by
  rw [withLenHi, toNat_append_eq, lenLo_toNat]
theorem wordByte_toNat (v : Word) (k : Nat) : (wordByte v k).toNat = v.toNat / 2 ^ (8 * k) % 256 := toNat_extract_eq v (8 * k) 8

theorem withLenLo_idem (l : Len) (v : Word) : withLenLo (withLenLo l v) v = withLenLo l v := by
  apply BitVec.eq_of_toNat_eq
  simp only [withLenLo_toNat]; have := v.isLt; omega

theorem withLenHi_idem (l : Len) (v : Word) : withLenHi (withLenHi l v) v = withLenHi l v := by
  apply BitVec.eq_of_toNat_eq
  simp only [withLenHi_toNat]; have := v.isLt; omega

end Sys2Proof.Machine
end

