-- ==== Sys2Proof/Laws/Block.lean ====
section
/-! SUPPORT. One byte of each buffer operation; the operations are irreducible, so proofs go through these. -/

namespace Sys2Proof.Machine

theorem block_ext {b b' : Block} (h : ∀ i : Fin 64, b[i] = b'[i]) : b = b' :=
  Vector.ext fun i hi => h ⟨i, hi⟩

theorem bufSet_get (blk : Block) (n : BitVec 6) (b : Byte) (i : Fin 64) :
    (bufSet blk n b)[i] = if i.val = n.toNat then b else blk[i] := by
  unfold bufSet
  rw [Fin.getElem_fin, Vector.getElem_set, Fin.getElem_fin]
  simp only [eq_comm]

theorem bufPad_get (blk : Block) (n : BitVec 6) (i : Fin 64) :
    (bufPad blk n)[i] = if i.val < n.toNat then blk[i] else if i.val = n.toNat then 0x80 else 0x00 := by
  unfold bufPad
  rw [Fin.getElem_fin, Vector.getElem_ofFn]

theorem bufWrite_get (blk : Block) (j : Fin 16) (v : Word) (i : Fin 64) :
    (bufWrite blk j v)[i] = if i.val / 4 = j.val then wordByte v (i.val % 4) else blk[i] := by
  unfold bufWrite
  rw [Fin.getElem_fin, Vector.getElem_ofFn]

theorem zeroBlock_get (i : Fin 64) : zeroBlock[i] = 0 := by
  simp [zeroBlock]

theorem bitLength_toNat (l : Len) : (bitLength l).toNat = 8 * l.toNat % 2 ^ 64 := by
  rw [bitLength, BitVec.toNat_mul]; simp; omega

/-- The block that rule R124 leaves: the last eight bytes are the little-endian bit-length. -/
theorem lengthImage_get (blk : Block) (l : Len) (i : Fin 64) :
    (bufWrite (bufWrite blk 14 (lenLo (bitLength l))) 15 (lenHi (bitLength l)))[i] =
      if i.val < 56 then blk[i] else BitVec.ofNat 8 (8 * l.toNat / 256 ^ (i.val - 56)) := by
  rw [bufWrite_get, bufWrite_get]
  have hi := i.isLt
  have hl := l.isLt
  by_cases h : i.val < 56
  · rw [if_neg (by simp; omega), if_neg (by simp; omega), if_pos h]
  · rw [if_neg h]
    generalize blk[i] = x
    have hk : i.val = 56 ∨ i.val = 57 ∨ i.val = 58 ∨ i.val = 59 ∨ i.val = 60 ∨ i.val = 61 ∨ i.val = 62 ∨ i.val = 63 := by
      omega
    apply BitVec.eq_of_toNat_eq
    rcases hk with h | h | h | h | h | h | h | h <;> rw [h] <;>
      simp [wordByte_toNat, lenLo_toNat, lenHi_toNat, bitLength_toNat] <;> omega

end Sys2Proof.Machine
end

