-- ==== Sys2Proof/Laws/Decode.lean ====
section
/-! SUPPORT. The fields of an encoded command, and what an accepted opcode and argument say about the command. -/

namespace Sys2Proof

open Machine

@[simp] theorem opField_encode (i : Instr) : opField (encode i) = opcode i := opField_packCmd _ _ _

@[simp] theorem rsvField_encode (i : Instr) : rsvField (encode i) = 0 := rsvField_packCmd _ _ _

@[simp] theorem argField_encode (i : Instr) : argField (encode i) = argument i := argField_packCmd _ _ _

theorem encode_toNat (i : Instr) : (encode i).toNat = (opcode i).toNat * 2 ^ 56 + (argument i).toNat := by
  rw [encode, packCmd_toNat]; simp

theorem decodeNoArg_ok {a : Word} {i j : Instr} (h : decodeNoArg a i = .ok j) : j = i ∧ a = 0 := by
  unfold decodeNoArg at h
  split at h
  · next ha => exact ⟨(Except.ok.inj h).symm, ha⟩
  · cases h

theorem decodeOp_ok {op : Byte} {a : Word} {i : Instr} (h : decodeOp op a = .ok i) :
    opcode i = op ∧ argument i = a := by
  unfold decodeOp at h
  repeat' split at h
  all_goals first
    | (obtain ⟨rfl, rfl⟩ := decodeNoArg_ok h; simp_all [opcode, argument])
    | (cases h <;> simp_all [opcode, argument, argOfByte_byteOperand, argOfFlag_rawOperand])

theorem decode_error_of {w : Cmd} (h : ∀ i, decode w ≠ .ok i) : ∃ e, decode w = .error e := by
  cases hd : decode w with
  | ok i => exact absurd hd (h i)
  | error e => exact ⟨e, rfl⟩

theorem illegal_iff (cfg : Config) (w : Cmd) :
    illegal cfg w = true ↔ ∀ i, decode w = .ok i → wellFormed cfg i = false := by
  unfold illegal
  cases h : decode w <;> simp

end Sys2Proof
end

