-- ==== Sys2Proof/Laws/State.lean ====
section
/-! SUPPORT. Each field after each write of one register, by `rfl`, so that no later proof unfolds a record update; and the record
that a composition of writes is. -/

namespace Sys2Proof.Machine

/-! ### `setAcc` -/

@[simp] theorem setAcc_acc (v : Acc) (s : State) : (setAcc v s).acc = v := rfl
@[simp] theorem setAcc_buf (v : Acc) (s : State) : (setAcc v s).buf = s.buf := rfl
@[simp] theorem setAcc_n (v : Acc) (s : State) : (setAcc v s).n = s.n := rfl
@[simp] theorem setAcc_len (v : Acc) (s : State) : (setAcc v s).len = s.len := rfl
@[simp] theorem setAcc_phase (v : Acc) (s : State) : (setAcc v s).phase = s.phase := rfl
@[simp] theorem setAcc_fcode (v : Acc) (s : State) : (setAcc v s).fcode = s.fcode := rfl
@[simp] theorem setAcc_cfg (v : Acc) (s : State) : (setAcc v s).cfg = s.cfg := rfl
@[simp] theorem setAcc_hosts (v : Acc) (s : State) : (setAcc v s).hosts = s.hosts := rfl
@[simp] theorem setAcc_resps (v : Acc) (s : State) : (setAcc v s).resps = s.resps := rfl

/-! ### `setBuf` -/

@[simp] theorem setBuf_acc (v : Block) (s : State) : (setBuf v s).acc = s.acc := rfl
@[simp] theorem setBuf_buf (v : Block) (s : State) : (setBuf v s).buf = v := rfl
@[simp] theorem setBuf_n (v : Block) (s : State) : (setBuf v s).n = s.n := rfl
@[simp] theorem setBuf_len (v : Block) (s : State) : (setBuf v s).len = s.len := rfl
@[simp] theorem setBuf_phase (v : Block) (s : State) : (setBuf v s).phase = s.phase := rfl
@[simp] theorem setBuf_fcode (v : Block) (s : State) : (setBuf v s).fcode = s.fcode := rfl
@[simp] theorem setBuf_cfg (v : Block) (s : State) : (setBuf v s).cfg = s.cfg := rfl
@[simp] theorem setBuf_hosts (v : Block) (s : State) : (setBuf v s).hosts = s.hosts := rfl
@[simp] theorem setBuf_resps (v : Block) (s : State) : (setBuf v s).resps = s.resps := rfl

/-! ### `setN` -/

@[simp] theorem setN_acc (v : BitVec 6) (s : State) : (setN v s).acc = s.acc := rfl
@[simp] theorem setN_buf (v : BitVec 6) (s : State) : (setN v s).buf = s.buf := rfl
@[simp] theorem setN_n (v : BitVec 6) (s : State) : (setN v s).n = v := rfl
@[simp] theorem setN_len (v : BitVec 6) (s : State) : (setN v s).len = s.len := rfl
@[simp] theorem setN_phase (v : BitVec 6) (s : State) : (setN v s).phase = s.phase := rfl
@[simp] theorem setN_fcode (v : BitVec 6) (s : State) : (setN v s).fcode = s.fcode := rfl
@[simp] theorem setN_cfg (v : BitVec 6) (s : State) : (setN v s).cfg = s.cfg := rfl
@[simp] theorem setN_hosts (v : BitVec 6) (s : State) : (setN v s).hosts = s.hosts := rfl
@[simp] theorem setN_resps (v : BitVec 6) (s : State) : (setN v s).resps = s.resps := rfl

/-! ### `setLen` -/

@[simp] theorem setLen_acc (v : Len) (s : State) : (setLen v s).acc = s.acc := rfl
@[simp] theorem setLen_buf (v : Len) (s : State) : (setLen v s).buf = s.buf := rfl
@[simp] theorem setLen_n (v : Len) (s : State) : (setLen v s).n = s.n := rfl
@[simp] theorem setLen_len (v : Len) (s : State) : (setLen v s).len = v := rfl
@[simp] theorem setLen_phase (v : Len) (s : State) : (setLen v s).phase = s.phase := rfl
@[simp] theorem setLen_fcode (v : Len) (s : State) : (setLen v s).fcode = s.fcode := rfl
@[simp] theorem setLen_cfg (v : Len) (s : State) : (setLen v s).cfg = s.cfg := rfl
@[simp] theorem setLen_hosts (v : Len) (s : State) : (setLen v s).hosts = s.hosts := rfl
@[simp] theorem setLen_resps (v : Len) (s : State) : (setLen v s).resps = s.resps := rfl

/-! ### `setPhase` -/

@[simp] theorem setPhase_acc (v : Phase) (s : State) : (setPhase v s).acc = s.acc := rfl
@[simp] theorem setPhase_buf (v : Phase) (s : State) : (setPhase v s).buf = s.buf := rfl
@[simp] theorem setPhase_n (v : Phase) (s : State) : (setPhase v s).n = s.n := rfl
@[simp] theorem setPhase_len (v : Phase) (s : State) : (setPhase v s).len = s.len := rfl
@[simp] theorem setPhase_phase (v : Phase) (s : State) : (setPhase v s).phase = v := rfl
@[simp] theorem setPhase_fcode (v : Phase) (s : State) : (setPhase v s).fcode = s.fcode := rfl
@[simp] theorem setPhase_cfg (v : Phase) (s : State) : (setPhase v s).cfg = s.cfg := rfl
@[simp] theorem setPhase_hosts (v : Phase) (s : State) : (setPhase v s).hosts = s.hosts := rfl
@[simp] theorem setPhase_resps (v : Phase) (s : State) : (setPhase v s).resps = s.resps := rfl

/-! ### `setFcode` -/

@[simp] theorem setFcode_acc (v : FaultCode) (s : State) : (setFcode v s).acc = s.acc := rfl
@[simp] theorem setFcode_buf (v : FaultCode) (s : State) : (setFcode v s).buf = s.buf := rfl
@[simp] theorem setFcode_n (v : FaultCode) (s : State) : (setFcode v s).n = s.n := rfl
@[simp] theorem setFcode_len (v : FaultCode) (s : State) : (setFcode v s).len = s.len := rfl
@[simp] theorem setFcode_phase (v : FaultCode) (s : State) : (setFcode v s).phase = s.phase := rfl
@[simp] theorem setFcode_fcode (v : FaultCode) (s : State) : (setFcode v s).fcode = v := rfl
@[simp] theorem setFcode_cfg (v : FaultCode) (s : State) : (setFcode v s).cfg = s.cfg := rfl
@[simp] theorem setFcode_hosts (v : FaultCode) (s : State) : (setFcode v s).hosts = s.hosts := rfl
@[simp] theorem setFcode_resps (v : FaultCode) (s : State) : (setFcode v s).resps = s.resps := rfl

/-! ### `setHosts` -/

@[simp] theorem setHosts_acc (v : List (List Cmd)) (s : State) : (setHosts v s).acc = s.acc := rfl
@[simp] theorem setHosts_buf (v : List (List Cmd)) (s : State) : (setHosts v s).buf = s.buf := rfl
@[simp] theorem setHosts_n (v : List (List Cmd)) (s : State) : (setHosts v s).n = s.n := rfl
@[simp] theorem setHosts_len (v : List (List Cmd)) (s : State) : (setHosts v s).len = s.len := rfl
@[simp] theorem setHosts_phase (v : List (List Cmd)) (s : State) : (setHosts v s).phase = s.phase := rfl
@[simp] theorem setHosts_fcode (v : List (List Cmd)) (s : State) : (setHosts v s).fcode = s.fcode := rfl
@[simp] theorem setHosts_cfg (v : List (List Cmd)) (s : State) : (setHosts v s).cfg = s.cfg := rfl
@[simp] theorem setHosts_hosts (v : List (List Cmd)) (s : State) : (setHosts v s).hosts = v := rfl
@[simp] theorem setHosts_resps (v : List (List Cmd)) (s : State) : (setHosts v s).resps = s.resps := rfl

/-! ### `addResp` -/

@[simp] theorem addResp_acc (v : Response) (s : State) : (addResp v s).acc = s.acc := rfl
@[simp] theorem addResp_buf (v : Response) (s : State) : (addResp v s).buf = s.buf := rfl
@[simp] theorem addResp_n (v : Response) (s : State) : (addResp v s).n = s.n := rfl
@[simp] theorem addResp_len (v : Response) (s : State) : (addResp v s).len = s.len := rfl
@[simp] theorem addResp_phase (v : Response) (s : State) : (addResp v s).phase = s.phase := rfl
@[simp] theorem addResp_fcode (v : Response) (s : State) : (addResp v s).fcode = s.fcode := rfl
@[simp] theorem addResp_cfg (v : Response) (s : State) : (addResp v s).cfg = s.cfg := rfl
@[simp] theorem addResp_hosts (v : Response) (s : State) : (addResp v s).hosts = s.hosts := rfl
@[simp] theorem addResp_resps (v : Response) (s : State) : (addResp v s).resps = s.resps ++ [v] := rfl

end Sys2Proof.Machine
end

