-- ==== Sys2Proof/Laws/Ops.lean ====
section
/-! SUPPORT. What taking a fault does, and what the checks before a command's own effect come to in each phase. -/

namespace Sys2Proof.Machine

/-- All that rule R162 does. -/
theorem raise_eq (c : FaultCode) (s : State) :
    raise c s = { s with
      phase := .fault
      fcode := if s.phase = .fault then s.fcode else c
      resps := s.resps ++ [⟨.fault, .empty⟩] } := by
  cases s with | mk acc buf n len phase fcode cfg hosts resps =>
  cases phase <;> simp [raise, respondFault, respond, addResp, setPhase, setFcode]

theorem raise_keeps (c : FaultCode) (s : State) :
    (raise c s).acc = s.acc ∧ (raise c s).buf = s.buf ∧ (raise c s).n = s.n ∧ (raise c s).len = s.len ∧
      (raise c s).phase = .fault ∧ (raise c s).fcode = (if s.phase = .fault then s.fcode else c) ∧
      (raise c s).resps = s.resps ++ [⟨.fault, .empty⟩] := by
  rw [raise_eq]; exact ⟨rfl, rfl, rfl, rfl, rfl, rfl, rfl⟩

theorem inSession_active {s : State} (h : s.phase = .active) (f : State → State) : inSession f s = f s := by
  simp only [inSession, h]

theorem inSession_done {s : State} (h : s.phase = .done) (f : State → State) :
    inSession f s = raise .sequenceError s := by
  simp only [inSession, h]

theorem inSession_fault {s : State} (h : s.phase = .fault) (f : State → State) : inSession f s = respondFault s := by
  simp only [inSession, h]

theorem ifSeeding_enabled {s : State} (h : s.cfg.seedEnabled = true) (f : State → State) :
    ifSeeding f s = inSession f s := by
  simp only [ifSeeding, h, if_true]

theorem ifSeeding_disabled {s : State} (h : s.cfg.seedEnabled = false) (f : State → State) :
    ifSeeding f s = raise .illegalCommand s := by
  simp [ifSeeding, h]

end Sys2Proof.Machine
end

