-- ==== Sys2Proof/Laws/Exec.lean ====
section
/-! SUPPORT. Everything a command can do: it is illegal in this core, or turned away by the phase, or accepted with its own
effect; and what the effects of `APPEND` and `FINALIZE` are in each of their cases. -/

namespace Sys2Proof.Machine

/-! ### `APPEND` and `FINALIZE` -/

theorem absorb_drain {b : Byte} {s : State} (h : s.n.toNat + 1 = 64) :
    absorb b s = drain (setBuf (bufSet s.buf s.n b) s) := if_pos h

theorem absorb_fill {b : Byte} {s : State} (h : ¬ s.n.toNat + 1 = 64) :
    absorb b s = setN (s.n + 1) (setBuf (bufSet s.buf s.n b) s) := if_neg h

theorem closeMessage_one {s : State} (h : ¬ 55 < s.n.toNat) :
    closeMessage s = setPhase .done (compressBuf (encodeLength (padBuffer (recordLength s)))) := by
  unfold closeMessage extraBlock; rw [if_neg]; exact h

theorem closeMessage_two {s : State} (h : 55 < s.n.toNat) :
    closeMessage s =
      setPhase .done (compressBuf (encodeLength (setBuf zeroBlock (compressBuf (padBuffer (recordLength s)))))) := by
  unfold closeMessage extraBlock; rw [if_pos]; exact h

theorem absorb_keeps (b : Byte) (s : State) :
    (absorb b s).phase = s.phase ∧ (absorb b s).fcode = s.fcode ∧ (absorb b s).cfg = s.cfg ∧
      (absorb b s).hosts = s.hosts ∧ (absorb b s).resps = s.resps := by
  unfold absorb; dsimp only; split <;> exact ⟨rfl, rfl, rfl, rfl, rfl⟩

theorem closeMessage_keeps (s : State) :
    (closeMessage s).n = s.n ∧ (closeMessage s).phase = .done ∧ (closeMessage s).fcode = s.fcode ∧
      (closeMessage s).cfg = s.cfg ∧ (closeMessage s).hosts = s.hosts ∧ (closeMessage s).resps = s.resps ∧
      (closeMessage s).len = s.len + s.n.zeroExtend 64 := by
  unfold closeMessage extraBlock; split <;> exact ⟨rfl, rfl, rfl, rfl, rfl, rfl, rfl⟩

theorem absorb_acc (b : Byte) (s : State) :
    (absorb b s).acc = if s.n.toNat + 1 = 64 then compress s.acc (bufSet s.buf s.n b) else s.acc := by
  split
  · next h => rw [absorb_drain h]; rfl
  · next h => rw [absorb_fill h]; rfl

theorem recordLength_toNat (s : State) : (recordLength s).len.toNat = (s.len.toNat + s.n.toNat) % 2 ^ 64 := by
  have := s.n.isLt
  rw [recordLength, setLen_len, BitVec.toNat_add, BitVec.toNat_setWidth]; omega

theorem encodeLength_buf (s : State) :
    (encodeLength s).buf =
      bufWrite (bufWrite s.buf 14 (lenLo (bitLength s.len))) 15 (lenHi (bitLength s.len)) := rfl

/-- The compressions of `FINALIZE`, one or two, and the block they end with. -/
theorem closeMessage_acc (s : State) :
    (closeMessage s).acc =
      if 55 < s.n.toNat then compress (compress s.acc (bufPad s.buf s.n)) (closeMessage s).buf
      else compress s.acc (closeMessage s).buf := by
  split
  · next h => rw [closeMessage_two h]; rfl
  · next h => rw [closeMessage_one h]; rfl

theorem closeMessage_buf (s : State) :
    (closeMessage s).buf =
      (encodeLength (setBuf (if 55 < s.n.toNat then zeroBlock else bufPad s.buf s.n) (recordLength s))).buf := by
  split
  · next h => rw [closeMessage_two h]; rfl
  · next h => rw [closeMessage_one h]; rfl

/-! ### `exec` -/

theorem exec_illegal {s : State} {i : Instr} (h : wellFormed s.cfg i = false) :
    exec i s = .next (raise .illegalCommand s) := by
  cases i <;> simp [wellFormed] at h <;> simp [exec, execSeedLenLo, execSeedLenHi, ifSeeding, h]

theorem exec_done {s : State} {i : Instr} (hw : wellFormed s.cfg i = true) (hn : needsSession i = true) (h : s.phase = .done) :
    exec i s = .next (raise .sequenceError s) := by
  cases i <;> simp [needsSession] at hn <;>
    simp only [exec, execAppend, execFinalize, execSeedLenLo, execSeedLenHi] <;> congr 1 <;>
    first
      | exact inSession_done h _
      | (rw [ifSeeding_enabled hw]; exact inSession_done h _)
theorem exec_fault {s : State} {i : Instr} (hw : wellFormed s.cfg i = true) (hn : needsSession i = true) (h : s.phase = .fault) :
    exec i s = .next (respondFault s) := by
  cases i <;> simp [needsSession] at hn <;>
    simp only [exec, execAppend, execFinalize, execSeedLenLo, execSeedLenHi] <;> congr 1 <;>
    first
      | exact inSession_fault h _
      | (rw [ifSeeding_enabled hw]; exact inSession_fault h _)

/-- The state an accepted command leaves. -/
def effect : Instr → State → State
  | .start, s => respondOk .empty (openSession s)
  | .append b, s => respondOk .empty (absorb b s)
  | .finalize raw, s => finish raw s
  | .seedLenLo v, s => respondOk .empty (setLen (withLenLo s.len v) s)
  | .seedLenHi v, s => respondOk .empty (setLen (withLenHi s.len v) s)
  | .readStatus, s => respondOk (.words [statusWord s]) s
  | .readLenLo, s => respondOk (.words [lenLo s.len]) s
  | .readLenHi, s => respondOk (.words [lenHi s.len]) s

theorem exec_accepted {i : Instr} {s : State} (hw : wellFormed s.cfg i = true)
    (hn : needsSession i = true → s.phase = .active) : exec i s = .next (effect i s) := by
  cases i with
  | append b => exact congrArg _ (inSession_active (hn rfl) _)
  | finalize raw => exact congrArg _ (inSession_active (hn rfl) _)
  | seedLenLo v => exact congrArg _ ((ifSeeding_enabled hw _).trans (inSession_active (hn rfl) _))
  | seedLenHi v => exact congrArg _ ((ifSeeding_enabled hw _).trans (inSession_active (hn rfl) _))
  | _ => rfl

theorem exec_cases (i : Instr) (s : State) :
    (wellFormed s.cfg i = false ∧ exec i s = .next (raise .illegalCommand s)) ∨
    (wellFormed s.cfg i = true ∧ needsSession i = true ∧ s.phase = .done ∧ exec i s = .next (raise .sequenceError s)) ∨
    (wellFormed s.cfg i = true ∧ needsSession i = true ∧ s.phase = .fault ∧ exec i s = .next (respondFault s)) ∨
    (wellFormed s.cfg i = true ∧ (needsSession i = true → s.phase = .active)) := by
  cases hw : wellFormed s.cfg i
  · exact .inl ⟨rfl, exec_illegal hw⟩
  · cases hn : needsSession i
    · exact .inr (.inr (.inr ⟨rfl, nofun⟩))
    · cases hp : s.phase
      · exact .inr (.inr (.inr ⟨rfl, fun _ => rfl⟩))
      · exact .inr (.inl ⟨rfl, rfl, rfl, exec_done hw hn hp⟩)
      · exact .inr (.inr (.inl ⟨rfl, rfl, rfl, exec_fault hw hn hp⟩))

/-- An accepted command answers `OK` and writes neither the parameter nor the hosts. -/
theorem effect_answers (i : Instr) (s : State) :
    ∃ d, (effect i s).resps = s.resps ++ [⟨.ok, d⟩] ∧ (effect i s).hosts = s.hosts ∧ (effect i s).cfg = s.cfg := by
  cases i with
  | append b =>
    obtain ⟨_, _, h3, h4, h5⟩ := absorb_keeps b s
    exact ⟨.empty, by simp [effect, respondOk, respond, h5], h4, h3⟩
  | finalize raw =>
    obtain ⟨_, _, _, h3, h4, h5, _⟩ := closeMessage_keeps s
    exact ⟨digestData raw (closeMessage s).acc, by simp [effect, finish, respondOk, respond, h5], h4, h3⟩
  | _ => exact ⟨_, rfl, rfl, rfl⟩

theorem effect_phase (i : Instr) (s : State) :
    (effect i s).phase = (match i with | .start => .active | .finalize _ => .done | _ => s.phase) ∧
      (effect i s).fcode = (match i with | .start => .none | _ => s.fcode) := by
  cases i with
  | append b => exact ⟨(absorb_keeps b s).1, (absorb_keeps b s).2.1⟩
  | finalize raw => exact ⟨(closeMessage_keeps s).2.1, (closeMessage_keeps s).2.2.1⟩
  | _ => exact ⟨rfl, rfl⟩

theorem exec_answers (i : Instr) (s : State) :
    ∃ t r, exec i s = .next t ∧ t.resps = s.resps ++ [r] ∧ t.hosts = s.hosts ∧ t.cfg = s.cfg := by
  rcases exec_cases i s with ⟨_, h⟩ | ⟨_, _, _, h⟩ | ⟨_, _, _, h⟩ | ⟨hw, hn⟩
  · rw [h, raise_eq]; exact ⟨_, _, rfl, rfl, rfl, rfl⟩
  · rw [h, raise_eq]; exact ⟨_, _, rfl, rfl, rfl, rfl⟩
  · rw [h]; exact ⟨_, _, rfl, rfl, rfl, rfl⟩
  · rw [exec_accepted hw hn]
    obtain ⟨d, h⟩ := effect_answers i s
    exact ⟨_, _, rfl, h⟩

end Sys2Proof.Machine
end

