-- ==== Sys2Proof/Laws/PerInstr.lean ====
section
/-! SUPPORT. Families of statements made once per constructor of `Instr`. -/

namespace Sys2Proof.Laws

open Machine

namespace EncodedFields

/-- The three fields of the encoded word (rules R60 to R62): the opcode of the row, `RSV = 0`, and the operand. -/
def Statement (i : Instr) : Prop :=
  opField (encode i) = opcode i ∧ rsvField (encode i) = 0 ∧ argField (encode i) = argument i

theorem start : Statement .start := ⟨opField_encode _, rsvField_encode _, argField_encode _⟩
theorem append (b : Byte) : Statement (.append b) := ⟨opField_encode _, rsvField_encode _, argField_encode _⟩
theorem finalize (raw : Bool) : Statement (.finalize raw) := ⟨opField_encode _, rsvField_encode _, argField_encode _⟩
theorem seedLenLo (v : Word) : Statement (.seedLenLo v) := ⟨opField_encode _, rsvField_encode _, argField_encode _⟩
theorem seedLenHi (v : Word) : Statement (.seedLenHi v) := ⟨opField_encode _, rsvField_encode _, argField_encode _⟩
theorem readStatus : Statement .readStatus := ⟨opField_encode _, rsvField_encode _, argField_encode _⟩
theorem readLenLo : Statement .readLenLo := ⟨opField_encode _, rsvField_encode _, argField_encode _⟩
theorem readLenHi : Statement .readLenHi := ⟨opField_encode _, rsvField_encode _, argField_encode _⟩

end EncodedFields

end Sys2Proof.Laws
end

