-- ==== Sys2Proof/Laws/Step.lean ====
section
/-! SUPPORT. Everything a step can do, once: it idles, or it performs the one word its host issues; and runs of commands taken
apart one word at a time. -/

namespace Sys2Proof.Machine

theorem step_of_command {s : State} {w : Cmd} {later : List Cmd} (h : s.hosts = [w :: later]) :
    step s = perform w (setHosts [later] s) := by
  simp only [step, nextCommand, h]

theorem perform_ok {w : Cmd} {i : Instr} (h : decode w = .ok i) (s : State) : perform w s = exec i s := by
  simp only [perform, h]

theorem perform_illegal {w : Cmd} {s : State} (h : illegal s.cfg w = true) :
    perform w s = .next (raise .illegalCommand s) := by
  cases hd : decode w with
  | error e => simp only [perform, hd]
  | ok i => rw [perform_ok hd]; exact exec_illegal ((illegal_iff _ _).1 h i hd)

theorem perform_cases {w : Cmd} {s t : State} (h : perform w s = .next t) :
    (illegal s.cfg w = true ∧ t = raise .illegalCommand s) ∨
    (∃ i, decode w = .ok i ∧ wellFormed s.cfg i = true ∧ needsSession i = true ∧ s.phase = .done ∧
      t = raise .sequenceError s) ∨
    (∃ i, decode w = .ok i ∧ wellFormed s.cfg i = true ∧ needsSession i = true ∧ s.phase = .fault ∧
      t = respondFault s) ∨
    (∃ i, decode w = .ok i ∧ wellFormed s.cfg i = true ∧ (needsSession i = true → s.phase = .active) ∧
      t = effect i s) := by
  cases hi : illegal s.cfg w
  · cases hd : decode w with
    | error e => simp [illegal, hd] at hi
    | ok i =>
      rw [perform_ok hd] at h
      rcases exec_cases i s with ⟨hw, he⟩ | ⟨hw, hn, hp, he⟩ | ⟨hw, hn, hp, he⟩ | ⟨hw, hn⟩
      · simp [illegal, hd, hw] at hi
      · rw [he] at h; cases h; exact .inr (.inl ⟨i, rfl, hw, hn, hp, rfl⟩)
      · rw [he] at h; cases h; exact .inr (.inr (.inl ⟨i, rfl, hw, hn, hp, rfl⟩))
      · rw [exec_accepted hw hn] at h; cases h; exact .inr (.inr (.inr ⟨i, rfl, hw, hn, rfl⟩))
  · rw [perform_illegal hi] at h; cases h; exact .inl ⟨rfl, rfl⟩

theorem perform_answers (w : Cmd) (s : State) :
    ∃ t r, perform w s = .next t ∧ t.resps = s.resps ++ [r] ∧ t.hosts = s.hosts ∧ t.cfg = s.cfg := by
  unfold perform
  split
  · rw [raise_eq]; exact ⟨_, _, rfl, rfl, rfl, rfl⟩
  · exact exec_answers _ _

theorem step_cases {s t : State} (h : step s = .next t) :
    (t = s ∧ (s.hosts = [] ∨ s.hosts = [[]])) ∨
    ∃ w later, s.hosts = [w :: later] ∧ perform w (setHosts [later] s) = .next t := by
  rcases hs : s.hosts with _ | ⟨_ | ⟨w, later⟩, _ | ⟨q, r⟩⟩
  · simp only [step, nextCommand, hs] at h; cases h; exact .inl ⟨rfl, .inl rfl⟩
  · simp only [step, nextCommand, hs] at h; cases h; exact .inl ⟨rfl, .inr rfl⟩
  · simp [step, nextCommand, hs] at h
  · exact .inr ⟨w, later, rfl, (step_of_command hs).symm.trans h⟩
  · simp [step, nextCommand, hs] at h

/-! ### Runs -/

theorem run_zero (s : State) : Sys2Proof.core.run 0 s = .next s := rfl
theorem run_next {k : Nat} {s t : State} (h : step s = .next t) : Sys2Proof.core.run (k + 1) s = Sys2Proof.core.run k t := by
  have h' : Sys2Proof.core.step s = .next t := h
  simp only [Host.Core.run, h']
theorem run_refused {k : Nat} {s : State} {r} (h : step s = .refused r) : Sys2Proof.core.run (k + 1) s = .refused r := by
  have h' : Sys2Proof.core.step s = .refused r := h
  simp only [Host.Core.run, h']

theorem issueAll_self {t : State} {ws : List Cmd} (h : t.hosts = [ws]) : issueAll ws t = t := by
  cases t; simp at h; subst h; rfl

theorem issueRun_nil (s : State) : issueRun [] s = .next (setHosts [[]] s) := rfl

theorem issueRun_cons {w : Cmd} {ws : List Cmd} {s t : State} (h : perform w (setHosts [ws] s) = .next t) :
    issueRun (w :: ws) s = issueRun ws t := by
  obtain ⟨t', r, h1, _, h3, _⟩ := perform_answers w (setHosts [ws] s)
  rw [h] at h1; cases h1
  have hstep : step (issueAll (w :: ws) s) = .next t := by
    rw [step_of_command (s := issueAll (w :: ws) s) rfl]; exact h
  show Sys2Proof.core.run (ws.length + 1) (issueAll (w :: ws) s) = Sys2Proof.core.run ws.length (issueAll ws t)
  rw [run_next hstep, issueAll_self h3]

theorem issueRun_next (ws : List Cmd) : ∀ s, ∃ t, issueRun ws s = .next t ∧ t.hosts = [[]] ∧ t.cfg = s.cfg := by
  induction ws with
  | nil => exact fun s => ⟨_, issueRun_nil s, rfl, rfl⟩
  | cons w ws ih =>
    intro s
    obtain ⟨t, _, h1, _, _, h4⟩ := perform_answers w (setHosts [ws] s)
    obtain ⟨u, h5, h6, h7⟩ := ih t
    exact ⟨u, (issueRun_cons h1).trans h5, h6, h7.trans h4⟩

theorem issueRun_setHosts (ws : List Cmd) (q : List (List Cmd)) (s : State) : issueRun ws (setHosts q s) = issueRun ws s := rfl

theorem issueRun_encode {i : Instr} {ws : List Cmd} {s t : State} (hd : decode (encode i) = .ok i)
    (h : exec i (setHosts [ws] s) = .next t) : issueRun (encode i :: ws) s = issueRun ws t :=
  issueRun_cons ((perform_ok hd _).trans h)

end Sys2Proof.Machine
end

