-- ==== Sys2Proof/Laws/Text.lean ====
section
/-! SUPPORT. Each reader of a listing's text undoes its writer, whatever text follows. -/

namespace Sys2Proof.Machine

theorem hexValue_hexChar : ∀ d, d < 16 → hexValue (hexChar d) = some d := by decide
theorem readDigits_hexText (k : Nat) : ∀ (acc v : Nat) (t : Text), (∀ c u, t = c :: u → hexValue c = none) →
    readDigits hexValue 16 acc (hexText k v ++ t) = (acc * 16 ^ k + v % 16 ^ k, t) := by
  induction k with
  | zero =>
    intro acc v t ht
    cases t with
    | nil => simp [hexText, readDigits, Nat.mod_one]
    | cons c u => simp [hexText, readDigits, ht c u rfl, Nat.mod_one]
  | succ k ih =>
    intro acc v t ht
    rw [hexText, List.cons_append, readDigits, hexValue_hexChar _ (Nat.mod_lt _ (by decide))]
    simp only
    rw [ih _ _ _ ht, Prod.mk.injEq]
    refine ⟨?_, rfl⟩
    have : v % 16 ^ (k + 1) = v % 16 ^ k + 16 ^ k * (v / 16 ^ k % 16) := by rw [pow_succ, Nat.mod_mul]
    rw [this, pow_succ]; ring

theorem readNumber_hexLiteral (k v : Nat) (hv : v < 16 ^ (k + 1)) (t : Text) (ht : ∀ c u, t = c :: u → hexValue c = none) :
    readNumber (hexLiteral (k + 1) v ++ t) = some (v, t) := by
  have hd : v / 16 ^ k < 16 := by rw [Nat.div_lt_iff_lt_mul (by positivity), ← pow_succ']; exact hv
  rw [hexLiteral, hexText]
  simp only [List.cons_append, readNumber]
  rw [hexValue_hexChar _ (Nat.mod_lt _ (by decide)), Option.map_some, readDigits_hexText _ _ _ _ ht, Nat.mod_eq_of_lt hd]
  rw [Nat.mul_comm, Nat.div_add_mod]

theorem readByte_hexLiteral (b : Byte) (t : Text) (ht : ∀ c u, t = c :: u → hexValue c = none) :
    readByte (hexLiteral 2 b.toNat ++ t) = some (b, t) := by
  have h := readNumber_hexLiteral 1 b.toNat b.isLt t ht
  have : readByte (hexLiteral 2 b.toNat ++ t) = (match readNumber (hexLiteral 2 b.toNat ++ t) with
    | some (v, rest) => if v < 256 then some (BitVec.ofNat 8 v, rest) else none
    | none => none) := by
    rw [hexLiteral]; rfl
  rw [this, h]
  simp only [b.isLt, if_true, BitVec.ofNat_toNat, BitVec.setWidth_eq]

theorem readOnly_hexLiteral (k v : Nat) (hv : v < 16 ^ (k + 1)) : readOnly (16 ^ (k + 1)) (hexLiteral (k + 1) v) = some v := by
  have := readNumber_hexLiteral k v hv [] (by simp)
  rw [List.append_nil] at this
  rw [readOnly, this]; simp [hv, skipBlanks]

theorem writeMoreBytes_head (bs : List Byte) : ∀ c u, writeMoreBytes bs = c :: u → hexValue c = none := by
  cases bs with
  | nil => simp [writeMoreBytes]
  | cons b bs => intro c u h; simp [writeMoreBytes] at h; obtain ⟨rfl, _⟩ := h; decide

theorem readMoreBytes_writeMoreBytes (bs : List Byte) : ∀ fuel, bs.length ≤ fuel → readMoreBytes fuel (writeMoreBytes bs) = some bs := by
  induction bs with
  | nil => intro fuel _; cases fuel <;> rfl
  | cons b bs ih =>
    intro fuel hf
    cases fuel with
    | zero => simp at hf
    | succ fuel =>
      have e : readMoreBytes (fuel + 1) (writeMoreBytes (b :: bs)) = (match readByte (hexLiteral 2 b.toNat ++ writeMoreBytes bs) with
        | some (b, rest) => (readMoreBytes fuel rest).map (b :: ·)
        | none => none) := rfl
      rw [e, readByte_hexLiteral _ _ (writeMoreBytes_head bs)]
      simp only [ih fuel (by simpa using hf), Option.map_some]

theorem writeMoreBytes_length (bs : List Byte) : bs.length ≤ (writeMoreBytes bs).length := by
  induction bs with
  | nil => simp
  | cons b bs ih =>
    have e : writeMoreBytes (b :: bs) = ',' :: ' ' :: (hexLiteral 2 b.toNat ++ writeMoreBytes bs) := rfl
    rw [e]; simp; omega

theorem readBytes_writeBytes (bs : List Byte) : readBytes (skipBlanks (writeBytes bs)) = some bs := by
  cases bs with
  | nil => rfl
  | cons b bs =>
    have e : skipBlanks (writeBytes (b :: bs)) = hexLiteral 2 b.toNat ++ writeMoreBytes bs := rfl
    have h := readMoreBytes_writeMoreBytes (b :: bs) ((hexLiteral 2 b.toNat ++ writeMoreBytes bs).length + 1) (by have := writeMoreBytes_length bs; simp; omega)
    rw [e]
    have e2 : readBytes (hexLiteral 2 b.toNat ++ writeMoreBytes bs) = readMoreBytes ((hexLiteral 2 b.toNat ++ writeMoreBytes bs).length + 1) (',' :: (hexLiteral 2 b.toNat ++ writeMoreBytes bs)) := rfl
    rw [e2, ← h]
    rfl

theorem readForm_writeForm (raw : Bool) (t : Text) : readForm (writeForm raw ++ t) = some (raw, t) := by cases raw <;> rfl

end Sys2Proof.Machine
end

