-- ==== Sys2Proof/Tests/Slice0.lean ====
section
/-! SUPPORT. The model against the spec's own evidence: words written out from rule R61 and `opcode_table.json`, the vectors and
programs of `95_test_vectors.md` (each test names its source), and, for every obligation with hypotheses, a state and
operands that meet them. Every expected value is the spec's. -/

namespace Sys2Proof.Tests.Slice0

open Sys2Proof Sys2Proof.Machine

/-! ### Helpers -/

/-- The state a step leaves, if it leaves one. -/
def nextOf (o : Host.Outcome State Fault Refusal) : Option State :=
  match o with
  | .next s => some s
  | .fault _ => none
  | .refused _ => none

/-- The core after reset, with `k` bytes 0x61 in its buffer and the length `l`. -/
def filled (k : BitVec 6) (l : Len) : State :=
  { State.reset with buf := Vector.ofFn fun i => if i.val < k.toNat then 0x61 else 0x00, n := k, len := l }

/-- The core in a given phase with a given fault code. -/
def inPhase (p : Phase) (c : FaultCode) : State := { State.reset with phase := p, fcode := c }

/-- A core built without the seeding commands. -/
def noSeeding (p : Phase) (c : FaultCode) : State := { inPhase p c with cfg := { seedEnabled := false } }

/-- A host that issues `w` to the core. -/
def issuing (w : Cmd) (s : State) : State := { s with hosts := [[w]] }

/-- The five message bytes of P1 and V2. -/
def hello : List Byte := [0x68, 0x65, 0x6C, 0x6C, 0x6F]

/-- The core after `START` and the bytes of `hello`. -/
def helloAbsorbed : State := { State.reset with buf := Vector.ofFn fun i => hello.getD i.val 0x00, n := 5 }

/-- The ASCII codes of a text. -/
def ascii (t : String) : List Byte := t.toList.map fun c => BitVec.ofNat 8 c.toNat

/-- The responses after one step. -/
def responses (s : State) : Option (List Response) := (nextOf (step s)).map State.resps

/-- Status of the only response, and `STATUS`, after one step: the columns of table V14. -/
def v14 (s : State) (w : Cmd) : Option (List RespStatus × Word) :=
  (nextOf (step (issuing w s))).map fun t => (t.resps.map Response.status, statusWord t)

/-! ### Well-formedness: the one check, with a term it refuses -/

theorem test_wellFormed_refuses_seedLenLo : wellFormed { seedEnabled := false } (.seedLenLo 5) = false := by decide
theorem test_wellFormed_refuses_seedLenHi : wellFormed { seedEnabled := false } (.seedLenHi 5) = false := by decide
theorem test_wellFormed_accepts_seeding :
    wellFormed Config.standard (.seedLenLo 5) = true ∧ wellFormed Config.standard (.seedLenHi 5) = true := by decide
theorem test_wellFormed_accepts_others :
    [Instr.start, .append 0x61, .finalize true, .readStatus, .readLenLo, .readLenHi].all
      (wellFormed { seedEnabled := false }) = true := by decide

/-! ### Decoding: one word per row, its bits written out from rules R60 and R61 -/

theorem test_decode_start :
    decode 0b0000000100000000000000000000000000000000000000000000000000000000 = .ok .start := by decide
theorem test_decode_append :
    decode 0b0000001000000000000000000000000000000000000000000000000001101000 = .ok (.append 0x68) := by decide
theorem test_decode_finalize_hex :
    decode 0b0000001100000000000000000000000000000000000000000000000000000000 = .ok (.finalize false) := by decide
theorem test_decode_finalize_raw :
    decode 0b0000001100000000000000000000000000000000000000000000000000000001 = .ok (.finalize true) := by decide
theorem test_decode_seedLenLo :
    decode 0b0000010000000000000000000000000010000000000000000000000000000001 = .ok (.seedLenLo 0x80000001) := by decide
theorem test_decode_seedLenHi :
    decode 0b0000010100000000000000000000000000000000000000000000000000000001 = .ok (.seedLenHi 1) := by decide
theorem test_decode_readStatus :
    decode 0b0000011000000000000000000000000000000000000000000000000000000000 = .ok .readStatus := by decide
theorem test_decode_readLenLo :
    decode 0b0000011100000000000000000000000000000000000000000000000000000000 = .ok .readLenLo := by decide
theorem test_decode_readLenHi :
    decode 0b0000100000000000000000000000000000000000000000000000000000000000 = .ok .readLenHi := by decide

/-- The words that table V14 calls illegal for every core. -/
theorem test_decode_refuses_v14 :
    decode 0x0000000000000000 = .error (.unknownOpcode 0x00) ∧ decode 0xFF00000000000000 = .error (.unknownOpcode 0xFF) ∧
    decode 0x8000000000000000 = .error (.unknownOpcode 0x80) ∧ decode 0x0100000000000001 = .error .argumentBits ∧
    decode 0x0300000000000002 = .error .argumentBits ∧ decode 0x0600000000000001 = .error .argumentBits := by decide

/-- The host's two interface functions on the eight rows of `opcode_table.json`, operands 0. -/
theorem test_table_words_decode :
    [0x01, 0x02, 0x03, 0x04, 0x05, 0x06, 0x07, 0x08].map (fun op => decodeTableWord 64 (op * 2 ^ 56)) =
      [some .start, some (.append 0), some (.finalize false), some (.seedLenLo 0), some (.seedLenHi 0), some .readStatus,
        some .readLenLo, some .readLenHi] := by decide

theorem test_table_words_run_first :
    [0x01, 0x02, 0x03, 0x04, 0x05, 0x06, 0x07, 0x08].map (fun op =>
      (nextOf (step (State.reset.withFetchWord 64 (op * 2 ^ 56)))).map fun t => (t.hosts, t.resps.map Response.status)) =
      List.replicate 8 (some ([[]], [RespStatus.ok])) := by decide +kernel

/-! ### Listings (rules R67 to R70) -/

/-- The three spellings of a byte, and a line that is none. -/
theorem test_readLine_append :
    ["APPEND 'h'", "APPEND 0x68", "APPEND 104", "APPEND 256"].map (fun t => readLine t.toList) =
      [some (.cmd (.append 0x68)), some (.cmd (.append 0x68)), some (.cmd (.append 0x68)), none] := by decide +kernel

/-- P1 written with its pseudo-command, and its words. -/
theorem test_assembleText_hash :
    assembleText ["HASH hex, 'h', 'e', 'l', 'l', 'o'".toList, "READ_STATUS".toList] =
      some [0x0100000000000000, 0x0200000000000068, 0x0200000000000065, 0x020000000000006C, 0x020000000000006C,
        0x020000000000006F, 0x0300000000000000, 0x0600000000000000] := by decide +kernel

/-- P4, commands 2 and 3 (rule R69), and a raw word of P5. -/
theorem test_assembleText_seedLen :
    assembleText ["SEED_LEN 0x0000000100000000".toList, ".word 0x0900000000000000".toList] =
      some [0x0400000000000000, 0x0500000000000001, 0x0900000000000000] := by decide +kernel

/-! ### Rounds, rotation, compression (V5 to V8) -/

/-- V8, every row. -/
theorem test_rotl32 :
    rotl32 0x80000001 7 = 0x000000C0 ∧ rotl32 0x12345678 4 = 0x23456781 ∧ rotl32 0xFFFFFFFF 13 = 0xFFFFFFFF ∧
    rotl32 0x00000001 23 = 0x00800000 ∧ rotl32 0x80000000 1 = 0x00000001 ∧ rotl32 0xD76AA4F7 7 = 0xB5527BEB := by decide

/-- V7, row 7. -/
theorem test_round_functions :
    roundF 0xAAAAAAAA 0x55555555 0xFFFF0000 = 0x55550000 ∧ roundG 0xAAAAAAAA 0x55555555 0xFFFF0000 = 0xAAAA5555 ∧
    roundH 0xAAAAAAAA 0x55555555 0xFFFF0000 = 0x0000FFFF ∧ roundI 0xAAAAAAAA 0x55555555 0xFFFF0000 = 0xFFFFAAAA := by
  decide

/-- V5: the working registers after steps 0, 15, 16, 32, 48 and 63. -/
theorem test_compression_trace :
    [1, 16, 17, 33, 49, 64].map (compressSteps (fun j => if j.val = 0 then 0x80 else 0) (loadWorking iv)) =
      [⟨0x10325476, 0xA5202774, 0xEFCDAB89, 0x98BADCFE⟩, ⟨0xF56C7CF1, 0xD6819C6A, 0x5AA53F75, 0x374943A7⟩,
        ⟨0x374943A7, 0x1C7D7513, 0xD6819C6A, 0x5AA53F75⟩, ⟨0xAE7813DB, 0xDF63EAA1, 0xA2205F1F, 0x1C31C384⟩,
        ⟨0x22A31F54, 0x93AA2577, 0xCA7D2DBD, 0x68D84EA2⟩, ⟨0x7246FAD3, 0x14E45506, 0xFF4EA3EB, 0x6E10A476⟩] := by
  decide +kernel

/-- V6, rows 5 and 6. -/
theorem test_compress_extremes :
    compress (Vector.replicate 4 0) (Vector.replicate 64 0x00) = #v[0xF7CD1C97, 0xA5483681, 0x2B68D832, 0xF90CA639] ∧
    compress (Vector.replicate 4 0xFFFFFFFF) (Vector.replicate 64 0xFF) =
      #v[0x6CBA9129, 0x29FFD12A, 0x8B9BB7D3, 0xA9A0A3C1] := by decide +kernel

/-! ### The commands, one step each -/

/-- V14, last row: `START` in `FAULT` answers `OK` and `STATUS` reads 0. -/
theorem test_start_reopens : v14 (inPhase .fault .sequenceError) 0x0100000000000000 = some ([.ok], 0x00000000) := by
  decide +kernel

/-- V6 row 2: the 64th byte 0x61 drains the buffer. -/
theorem test_append_drains :
    (nextOf (exec (.append 0x61) (filled 63 0))).map (fun t => (t.acc, t.n, t.len)) =
      some (#v[0x89D4FF56, 0x125CD962, 0x69CADE33, 0x0033E325], 0, 64) := by decide +kernel

/-- V13, "Drain across the top of `L`". -/
theorem test_append_length_wraps :
    (nextOf (exec (.append 0x61) (filled 63 0xFFFFFFFFFFFFFFC0))).map (fun t => (t.len, t.n)) = some (0, 0) := by
  decide +kernel

/-- V2 and P1: the digest of "hello" in hexadecimal. -/
theorem test_finalize_hello_hex :
    responses (issuing 0x0300000000000000 helloAbsorbed) =
      some [⟨.ok, .chars (ascii "5d41402abc4b2a76b9719d911017c592")⟩] := by decide +kernel

/-- V12 and V9, the extra-block branch: 56 bytes 0x61, the raw digest, and the last block's image. -/
theorem test_finalize_two_blocks :
    (nextOf (exec (.finalize true) (filled 56 0))).map (fun t => (t.resps, t.len, t.buf.toList)) =
      some ([⟨.ok, .words [0xC78A0C3B, 0xB028F803, 0x70196C4C, 0x1872D106]⟩], 56,
        List.replicate 56 0x00 ++ [0xC0, 0x01, 0, 0, 0, 0, 0, 0]) := by decide +kernel

/-- V9 row `n = 55` and V11: the longest message tail that needs no extra block. -/
theorem test_finalize_one_block :
    (nextOf (exec (.finalize false) (filled 55 0))).map (fun t => (t.resps, t.buf.toList)) =
      some ([⟨.ok, .chars (ascii "ef1772b6dff9a122358552954ad0df65")⟩],
        List.replicate 55 0x61 ++ [0x80, 0xB8, 0x01, 0, 0, 0, 0, 0, 0]) := by decide +kernel

/-- P4, commands 2 and 3. -/
theorem test_seedLenLo : (nextOf (exec (.seedLenLo 0) (filled 0 0x00000001FFFFFFFF))).map State.len = some 0x0000000100000000 := by
  decide
theorem test_seedLenHi : (nextOf (exec (.seedLenHi 1) (filled 0 0))).map State.len = some 0x0000000100000000 := by decide

/-- P5, command 5: `STATUS` in `FAULT` with code 2 and `n = 1`. -/
theorem test_readStatus :
    responses (issuing 0x0600000000000000 { inPhase .fault .sequenceError with n := 1 }) =
      some [⟨.ok, .words [0x00020201]⟩] := by decide
/-- P4, commands 6 and 7. -/
theorem test_readLenLo :
    responses (issuing 0x0700000000000000 (filled 0 0x0000000100000000)) = some [⟨.ok, .words [0]⟩] := by decide
theorem test_readLenHi :
    responses (issuing 0x0800000000000000 (filled 0 0x0000000100000000)) = some [⟨.ok, .words [1]⟩] := by decide

/-! ### Table V14 -/

theorem test_v14_from_reset :
    [0x0000000000000000, 0x0900000000000000, 0xFF00000000000000, 0x8000000000000000, 0x0100000000000001,
      0x0200000100000061, 0x0200000000000161, 0x0300000000000002, 0x0600000000000001].map (v14 State.reset) =
      List.replicate 9 (some ([.fault], 0x00010200)) := by decide +kernel

theorem test_v14_seeding_absent :
    v14 (noSeeding .active .none) 0x0400000000000005 = some ([.fault], 0x00010200) := by decide +kernel

theorem test_v14_after_finalize :
    [0x0200000000000061, 0x0400000000000005, 0x0300000000000000, 0x0900000000000000, 0x0600000000000000].map
        (v14 (inPhase .done .none)) =
      [some ([.fault], 0x00020200), some ([.fault], 0x00020200), some ([.fault], 0x00020200),
        some ([.fault], 0x00010200), some ([.ok], 0x00000100)] := by decide +kernel

theorem test_v14_in_fault :
    [0x0900000000000000, 0x0200000000000062].map (v14 (inPhase .fault .sequenceError)) =
      List.replicate 2 (some ([.fault], 0x00020200)) := by decide +kernel

/-! ### Witnesses: states and operands that meet the hypotheses of the obligations, one theorem for each case of a statement -/

theorem witness_AcceptedWordIsItsEncoding : ∃ w i, decode w = .ok i := ⟨0x0200000000000068, .append 0x68, by decide⟩

theorem witness_DecodeMatchesOpcodeTable :
    opcodeTable.map OpcodeRow.mnemonic = ["START", "APPEND", "FINALIZE", "SEED_LEN_LO", "SEED_LEN_HI", "READ_STATUS",
      "READ_LEN_LO", "READ_LEN_HI"] ∧
    (opcodeTable.map fun r => r.accepts 0x02000000000000FF) = [false, true, false, false, false, false, false, false] := by
  decide

/-- Each condition of rule R63 alone, at the edge of its range, and the nearest legal words. -/
theorem witness_IllegalWordFaultsInEveryPhase :
    (issuing 0x0900000000000000 State.reset).hosts = [[0x0900000000000000]] ∧
    [0x0000000000000000, 0x0900000000000000, 0x0100000100000000, 0x0600000000000001, 0x0200000000000100,
      0x0300000000000002].map (illegal Config.standard) = List.replicate 6 true ∧
    illegal { seedEnabled := false } 0x0400000000000000 = true ∧
    [0x0100000000000000, 0x0800000000000000, 0x02000000000000FF, 0x0300000000000001, 0x05000000FFFFFFFF].map
      (illegal Config.standard) = List.replicate 5 false := by decide

theorem witness_StepPerformsDecodedCommand :
    (issuing 0x0100000000000000 State.reset).hosts = [[0x0100000000000000]] ∧ decode 0x0100000000000000 = .ok .start := by
  decide

theorem witness_StepIdlesOrRefusesWithoutOneCommand :
    State.reset.hosts = [[]] ∧ ({ State.reset with hosts := [] } : State).hosts = [] ∧
    2 ≤ ({ State.reset with hosts := [[], []] } : State).hosts.length := by decide

/-- One host, with a word answered `OK` and with one answered `FAULT`. -/
theorem witness_EveryCommandGetsOneResponse :
    (issuing 0x0700000000000000 State.reset).hosts = [[0x0700000000000000]] ∧
    v14 State.reset 0x0700000000000000 = some ([.ok], 0) ∧
    v14 State.reset 0x0A00000000000000 = some ([.fault], 0x00010200) := by decide +kernel

theorem witness_FaultResponseExactlyOnMisuse :
    (issuing 0x0200000000000061 (inPhase .done .none)).hosts = [[0x0200000000000061]] ∧
    illegal (inPhase .done .none).cfg 0x0200000000000061 = false ∧ decode 0x0200000000000061 = .ok (.append 0x61) ∧
    needsSession (.append 0x61) = true ∧ (inPhase .done .none).phase ≠ .active := by decide

theorem witness_StartOpensSession :
    (0x0100000000000000 : Cmd).toNat / 2 ^ 56 = 0x01 ∧ (0x0100000000000001 : Cmd).toNat / 2 ^ 56 = 0x01 ∧
    (0x0100000000000001 : Cmd).toNat ≠ 0x0100000000000000 ∧
    (inPhase .done .none).phase ≠ .active ∧
    (nextOf (exec .start (inPhase .done .none))).map State.phase = some .active := by decide

theorem witness_SeedingWritesOneHalfOfLength :
    (State.reset.phase = .active ∧ State.reset.cfg.seedEnabled = true) ∧
    (noSeeding .active .none).cfg.seedEnabled = false ∧ (noSeeding .fault .sequenceError).cfg.seedEnabled = false ∧
    ((inPhase .done .none).cfg.seedEnabled = true ∧ (inPhase .done .none).phase = .done) ∧
    ((inPhase .fault .illegalCommand).cfg.seedEnabled = true ∧ (inPhase .fault .illegalCommand).phase = .fault) ∧
    ((0x0480000000000000 : Cmd).toNat / 2 ^ 56 = 0x04 ∧ (0x0480000000000000 : Cmd).toNat / 2 ^ 32 % 2 ^ 24 ≠ 0) ∧
    ((0x0500000100000000 : Cmd).toNat / 2 ^ 56 = 0x05 ∧ (0x0500000100000000 : Cmd).toNat / 2 ^ 32 % 2 ^ 24 ≠ 0) := by
  decide

theorem witness_ReadStatusReturnsStatusView :
    (0x0600000000000000 : Cmd).toNat / 2 ^ 56 = 0x06 ∧ (0x06FFFFFFFFFFFFFF : Cmd).toNat / 2 ^ 56 = 0x06 := by decide

theorem witness_ReadLengthReturnsHalves :
    (0x0700000000000000 : Cmd).toNat / 2 ^ 56 = 0x07 ∧ (0x0800000000000000 : Cmd).toNat / 2 ^ 56 = 0x08 ∧
    (0x0780000000000000 : Cmd).toNat / 2 ^ 56 = 0x07 := by decide

theorem witness_SeedLengthThenReadBack :
    (filled 5 64).phase = .active ∧ (filled 5 64).cfg.seedEnabled = true := by decide

/-- Below the block's end, at it, and in the two phases that refuse; the largest legal word and the smallest illegal one. -/
theorem witness_AppendAbsorbsOneByte :
    ((filled 62 0).phase = .active ∧ (filled 62 0).n.toNat + 1 ≠ 64) ∧
    ((filled 63 0).phase = .active ∧ (filled 63 0).n.toNat + 1 = 64) ∧
    (inPhase .done .none).phase = .done ∧ (inPhase .fault .illegalCommand).phase = .fault ∧
    ((0x02000000000000FF : Cmd).toNat / 2 ^ 56 = 0x02 ∧ (0x02000000000000FF : Cmd).toNat % 2 ^ 56 < 256) ∧
    ((0x0200000000000100 : Cmd).toNat / 2 ^ 56 = 0x02 ∧ ¬ (0x0200000000000100 : Cmd).toNat % 2 ^ 56 < 256) := by decide

theorem witness_AbsorbedMessageState :
    (4 : Fin 64).val < hello.length % 64 ∧ hello[64 * (hello.length / 64) + 4]? = some 0x6F := by decide

theorem witness_SplittingAndReadsDoNotMatter :
    ∀ i ∈ [Instr.append 0x61, .readStatus, .append 0x62, .readLenLo, .readLenHi], isAppend i = true ∨ isRead i = true := by
  decide

theorem witness_RotationIsCircular :
    (1 ≤ 1 ∧ 1 ≤ 31 ∧ rotl32 0x80000000 1 = 1) ∧ (1 ≤ 31 ∧ 31 ≤ 31 ∧ rotl32 0x80000001 31 = 0xC0000000) := by decide

theorem witness_RoundFunctionsBitwise : 0 < 32 ∧ 31 < 32 ∧ (roundI 0 0 0).getLsbD 31 = true := by decide

theorem witness_StepParametersAreTheTable :
    (0 < 64 ∧ stepFn 0 0xAAAAAAAA 0x55555555 0xFFFF0000 = 0x55550000) ∧
    (16 < 64 ∧ stepFn 16 0xAAAAAAAA 0x55555555 0xFFFF0000 = 0xAAAA5555) ∧
    (32 < 64 ∧ stepFn 32 0xAAAAAAAA 0x55555555 0xFFFF0000 = 0x0000FFFF) ∧
    (63 < 64 ∧ stepFn 63 0xAAAAAAAA 0x55555555 0xFFFF0000 = 0xFFFFAAAA) := by decide

theorem witness_CompressIsStepsThenFeedForward :
    (0 < 64 ∧ shiftAmount 0 = 7) ∧ (63 < 64 ∧ shiftAmount 63 = 21 ∧ stepConstant 63 = 0xEB86D391) := by decide

theorem witness_CompressionStepsAreInjective :
    compressSteps (fun _ => 0) (loadWorking iv) 64 = compressSteps (fun _ => 0) (loadWorking iv) 64 ∧
    compressSteps (fun _ => 0) (loadWorking iv) 64 ≠ compressSteps (fun _ => 0) ⟨0, 0, 0, 0⟩ 64 := by decide +kernel

/-- The occupancies at the edges of both branches, and the two phases that refuse. -/
theorem witness_FinalizeClosesMessage :
    ((filled 0 0).phase = .active ∧ (filled 55 0).phase = .active ∧ ¬ 55 < (filled 55 0).n.toNat) ∧
    ((filled 56 0).phase = .active ∧ 55 < (filled 56 0).n.toNat ∧ (filled 63 0).phase = .active) ∧
    (inPhase .done .none).phase = .done ∧ (inPhase .fault .illegalCommand).phase = .fault ∧
    (0x0300000000000001 : Cmd).toNat / 2 ^ 56 = 0x03 ∧ (0x0300000000000002 : Cmd).toNat / 2 ^ 56 = 0x03 := by decide

theorem witness_HexDigestCharacters :
    ∃ digit : Nat → Byte, iv[(3 : Fin 16).val / 4] = 0x67452301 ∧
      (∀ d, digit d = BitVec.ofNat 8 (if d < 10 then 0x30 + d else 0x61 + d - 10)) ∧ digit 9 = 0x39 ∧ digit 10 = 0x61 :=
  ⟨fun d => BitVec.ofNat 8 (if d < 10 then 0x30 + d else 0x61 + d - 10), by decide, fun _ => rfl, by decide, by decide⟩

theorem witness_HexDigestDeterminesWords :
    hexBytes iv = hexBytes #v[0x67452301, 0xEFCDAB89, 0x98BADCFE, 0x10325476] ∧
    hexBytes iv ≠ hexBytes #v[0x67452301, 0xEFCDAB89, 0x98BADCFE, 0x10325477] := by decide +kernel

theorem witness_RawAndHexDigestsAgree : helloAbsorbed.phase = .active := by decide

theorem witness_DoneRefusesSessionCommands :
    (filled 56 0).phase = .active ∧ (inPhase .done .none).phase = .done ∧
    (wellFormed (inPhase .done .none).cfg (.seedLenHi 1) = true ∧ needsSession (.seedLenHi 1) = true) ∧
    (wellFormed (noSeeding .done .none).cfg (.append 1) = true ∧ needsSession (.append 1) = true) ∧
    (wellFormed (inPhase .done .none).cfg .start = true ∧ needsSession .start = false) := by decide

theorem witness_FaultPhaseIsSticky :
    (inPhase .fault .sequenceError).phase = .fault ∧
    (wellFormed (inPhase .fault .sequenceError).cfg (.finalize true) = true ∧ needsSession (.finalize true) = true) ∧
    isRead .readStatus = true ∧
    ((issuing 0x0000000000000000 (inPhase .fault .sequenceError)).hosts = [[0x0000000000000000]] ∧
      illegal (inPhase .fault .sequenceError).cfg 0x0000000000000000 = true) := by decide

/-- A command that is answered `FAULT`, by each of the three ways. -/
theorem witness_FaultsArePrecise :
    responses (issuing 0x0900000000000000 (filled 7 64)) = some ((filled 7 64).resps ++ [⟨.fault, .empty⟩]) ∧
    responses (issuing 0x0200000000000061 (inPhase .done .none)) = some [⟨.fault, .empty⟩] ∧
    responses (issuing 0x0200000000000061 (inPhase .fault .illegalCommand)) = some [⟨.fault, .empty⟩] := by decide +kernel

/-- Out of `FAULT`, back from `DONE`, and a second fault in `FAULT`. -/
theorem witness_OnlyStartReopens :
    (nextOf (step (issuing 0x0100000000000000 (inPhase .fault .illegalCommand)))).map State.phase = some .active ∧
    (nextOf (step (issuing 0x0100000000000000 (inPhase .done .none)))).map State.phase = some .active ∧
    responses (issuing 0x0900000000000000 (inPhase .fault .sequenceError)) = some [⟨.fault, .empty⟩] := by decide +kernel

theorem witness_FirstFaultCodeIsKept :
    (inPhase .fault .sequenceError).phase = .fault ∧
    ∀ w ∈ ([0x0900000000000000, 0x0200000000000061, 0x0600000000000000] : List Cmd), w ≠ 0x0100000000000000 := by
  refine ⟨rfl, fun w hw => ?_⟩
  simp only [List.mem_cons, List.not_mem_nil, or_false] at hw
  rcases hw with rfl | rfl | rfl <;> decide

theorem witness_PowerOnAndStartValues :
    State.reset = State.powerOn Config.standard (Vector.replicate 64 0x00) ∧
    (nextOf (exec .start (filled 7 64))).isSome = true := by decide +kernel

theorem witness_StepKeepsFaultCodeCoherent :
    Coherent (inPhase .fault .illegalCommand) ∧
    (nextOf (step (issuing 0x0100000000000000 (inPhase .fault .illegalCommand)))).isSome = true := by decide +kernel

theorem witness_StepKeepsLengthAlignedUnlessSeeded :
    LengthAligned (issuing 0x0200000000000061 (filled 63 64)) ∧
    (nextOf (step (issuing 0x0200000000000061 (filled 63 64)))).isSome = true ∧
    decode 0x0200000000000061 = .ok (.append 0x61) ∧ isSeed (.append 0x61) = false := by decide +kernel

theorem witness_StepIsTotalForOneHost :
    (filled 0 0).hosts.length ≤ 1 ∧ ({ State.reset with hosts := [] } : State).hosts.length ≤ 1 ∧
    (issuing 0x0100000000000000 State.reset).hosts.length ≤ 1 ∧
    step { State.reset with hosts := [[], []] } = .refused .severalHosts :=
  ⟨by decide, by decide, by decide, rfl⟩

/-- A step that performs each kind of command, at the edges of each case; the length and the image of the statement. -/
theorem witness_AccumulatorWriters :
    [(0x0100000000000000, filled 5 0), (0x0200000000000061, filled 62 0), (0x0200000000000061, filled 63 0),
      (0x0200000000000061, inPhase .done .none), (0x0300000000000001, filled 55 0), (0x0300000000000001, filled 56 0),
      (0x0300000000000001, inPhase .fault .sequenceError), (0x0400000000000001, filled 5 0),
      (0x0500000000000001, noSeeding .active .none), (0x0600000000000000, filled 5 0)].all
      (fun p => (nextOf (step (issuing p.1 p.2))).isSome && (decodeTableWord 64 p.1.toNat).isSome) = true ∧
    ((filled 63 0xFFFFFFFFFFFFFFC1).len.toNat + (filled 63 0xFFFFFFFFFFFFFFC1).n.toNat) % 2 ^ 64 = (0 : Len).toNat := by
  decide +kernel

/-- The image that the statement names exists, by its own equation. -/
theorem witness_AccumulatorWriters_image : ∃ image : Block → Block,
    ∀ blk, image blk = bufWrite (bufWrite blk 14 (lenLo (bitLength 5))) 15 (lenHi (bitLength 5)) := ⟨_, fun _ => rfl⟩

/-- The second clause: a word that is no command, and no command. -/
theorem witness_AccumulatorWriters_unchanged :
    (nextOf (step (issuing 0x0900000000000000 State.reset))).isSome = true ∧
    (∀ i, decode 0x0900000000000000 ≠ .ok i) ∧
    (nextOf (step State.reset)).isSome = true ∧ State.reset.hosts = [[]] := by
  refine ⟨by decide, fun i h => ?_, by decide, by decide⟩
  rw [show decode 0x0900000000000000 = .error (.unknownOpcode 0x09) by decide] at h
  cases h

theorem witness_BufferWriters :
    (nextOf (step (issuing 0x0200000000000062 State.reset))).map (fun t => t.buf[(0 : Fin 64)]) = some 0x62 ∧
    State.reset.buf[(0 : Fin 64)] ≠ 0x62 ∧
    (nextOf (step (issuing 0x0300000000000000 (filled 56 0)))).map (fun t => t.buf[(0 : Fin 64)]) = some 0x00 ∧
    (filled 56 0).buf[(0 : Fin 64)] ≠ 0x00 := by decide +kernel

theorem witness_ReadsHaveNoSideEffects :
    isRead .readStatus = true ∧ isRead .readLenLo = true ∧ isRead .readLenHi = true := by decide

/-- Two cores with different stale bytes. -/
theorem witness_StaleBytesAreNeverObserved :
    SameButStale (issuing 0x0300000000000000 (filled 5 0))
      (issuing 0x0300000000000000 { filled 5 0 with buf := Vector.ofFn fun i => if i.val < 5 then 0x61 else 0xAA }) ∧
    (filled 5 0).buf[(5 : Fin 64)] ≠ 0xAA := by decide +kernel

theorem witness_CoresShareNothing :
    ∃ p', platformStep { cores := [issuing 0x0600000000000000 State.reset, filled 5 0] } ⟨0, by decide⟩ = .next p' ∧
      p'.cores.length = 2 := ⟨_, rfl, rfl⟩

/-- The premises of the clauses together, at the edge of each: 61 bytes, a full buffer, the least low half that carries. -/
theorem witness_RepetitionActsAgain :
    (filled 61 0).phase = .active ∧ (filled 61 0).n.toNat ≤ 61 ∧ (filled 56 0).phase = .active ∧
    (filled 63 0xFFFFFFC0).phase = .active ∧ (filled 63 0xFFFFFFC0).cfg.seedEnabled = true ∧
    (filled 63 0xFFFFFFC0).n.toNat = 63 ∧ 2 ^ 32 ≤ (filled 63 0xFFFFFFC0).len.toNat % 2 ^ 32 + 64 ∧
    isSeed (.seedLenLo 5) = true ∧
    [Instr.start, .seedLenLo 5, .seedLenHi 1].all
      (fun i => ((nextOf (exec i (filled 5 0))).bind fun t => nextOf (exec i t)).isSome) = true := by decide +kernel

end Sys2Proof.Tests.Slice0
end

section
/-!
Proofs about the rotation `rotl32` (rule R8, O20): at a shift below 32 it is the library's circular rotation, and its two
shifted parts have no bit in common, so that joining them is adding them.
-/

namespace Sys2Proof.Machine

theorem rotl32_eq_rotateLeft (x : Word) {s : Nat} (hs : s < 32) : rotl32 x s = x.rotateLeft s := by
  rw [BitVec.rotateLeft_eq_rotateLeftAux_of_lt hs, rotl32, BitVec.rotateLeftAux]

/-- The left shift fills bits `s` and above, the right shift those below `s`. -/
theorem shiftLeft_and_shiftRight_eq_zero (x : Word) (s : Nat) : (x <<< s) &&& (x >>> (32 - s)) = 0#32 := by
  ext k hk
  rw [BitVec.getElem_and, BitVec.getElem_shiftLeft, BitVec.getElem_ushiftRight, BitVec.getElem_zero]
  by_cases hks : k < s
  · simp [hks]
  · have high : x.getLsbD (32 - s + k) = false := BitVec.getLsbD_of_ge x _ (by omega)
    simp [high]

theorem toNat_rotl32 (x : Word) (s : Nat) :
    (rotl32 x s).toNat = x.toNat * 2 ^ s % 2 ^ 32 + x.toNat / 2 ^ (32 - s) := by
  have disjoint := shiftLeft_and_shiftRight_eq_zero x s
  calc (rotl32 x s).toNat
      = (x <<< s + x >>> (32 - s)).toNat := by rw [rotl32, BitVec.add_eq_or_of_and_eq_zero _ _ disjoint]
    _ = (x <<< s).toNat + (x >>> (32 - s)).toNat := BitVec.toNat_add_of_and_eq_zero disjoint
    _ = x.toNat * 2 ^ s % 2 ^ 32 + x.toNat / 2 ^ (32 - s) := by
      rw [BitVec.toNat_shiftLeft, BitVec.toNat_ushiftRight, Nat.shiftLeft_eq, Nat.shiftRight_eq_div_pow]

/-- Settles O20: the value is the sum of two disjoint shifts, and the word is the library's rotation. -/
theorem rotationIsCircular : Obligations.RotationIsCircular :=
  fun x s _ hs => ⟨toNat_rotl32 x s, rotl32_eq_rotateLeft x (by omega)⟩

end Sys2Proof.Machine
end

section
/-!
Proofs about the state and its invariants (`10_state.md`). What a completed step can be is said once, in `step_outcomes`: the
core idles, turns the word away by `raise`, or performs an accepted command by `effect`. Every statement about one step is a
case analysis of it. The noninterference statement is a commuting diagram per operation, joined into one for `step`.
-/

namespace Sys2Proof.Machine

/-! ### What a completed step can be -/

/-- In `FAULT` the silent response of rule R66 is what rule R162 comes to, whatever the code. -/
theorem respondFault_eq_raise {s : State} (h : s.phase = .fault) (c : FaultCode) : respondFault s = raise c s := by
  simp only [raise, h]

/-- A word is turned away by `raise`, and for cause: it is no command of this core, or it needs the open session that is
missing. Every other word is accepted. -/
theorem perform_outcomes {w : Cmd} {s t : State} (h : perform w s = .next t) :
    (∃ c, c ≠ .none ∧ t = raise c s ∧
      ∀ i, decode w = .ok i → wellFormed s.cfg i = true → needsSession i = true ∧ s.phase ≠ .active) ∨
    ∃ i, decode w = .ok i ∧ (needsSession i = true → s.phase = .active) ∧ t = effect i s := by
  rcases perform_cases h with ⟨illegal, rfl⟩ | ⟨i, dec, _, needs, done, rfl⟩ | ⟨i, dec, _, needs, fault, rfl⟩ |
    ⟨i, dec, _, session, rfl⟩
  · refine .inl ⟨.illegalCommand, nofun, rfl, fun i dec wf => ?_⟩
    have notWf : wellFormed s.cfg i = false := (illegal_iff _ _).1 illegal i dec
    exact absurd (wf.symm.trans notWf) nofun
  · refine .inl ⟨.sequenceError, nofun, rfl, fun j decj _ => ?_⟩
    cases dec.symm.trans decj
    exact ⟨needs, fun active => absurd (done.symm.trans active) nofun⟩
  · refine .inl ⟨.sequenceError, nofun, respondFault_eq_raise fault _, fun j decj _ => ?_⟩
    cases dec.symm.trans decj
    exact ⟨needs, fun active => absurd (fault.symm.trans active) nofun⟩
  · exact .inr ⟨i, dec, session, rfl⟩

theorem step_outcomes {s t : State} (h : step s = .next t) :
    t = s ∨
    ∃ w later, s.hosts = [w :: later] ∧
      ((∃ c, c ≠ .none ∧ t = raise c (setHosts [later] s)) ∨
        ∃ i, decode w = .ok i ∧ (needsSession i = true → s.phase = .active) ∧ t = effect i (setHosts [later] s)) := by
  rcases step_cases h with ⟨idle, _⟩ | ⟨w, later, hosts, performed⟩
  · exact .inl idle
  rcases perform_outcomes performed with ⟨c, hc, raised, _⟩ | accepted
  · exact .inr ⟨w, later, hosts, .inl ⟨c, hc, raised⟩⟩
  · exact .inr ⟨w, later, hosts, .inr accepted⟩

@[simp] theorem raise_acc (c : FaultCode) (s : State) : (raise c s).acc = s.acc := by rw [raise_eq]
@[simp] theorem raise_buf (c : FaultCode) (s : State) : (raise c s).buf = s.buf := by rw [raise_eq]
@[simp] theorem raise_phase (c : FaultCode) (s : State) : (raise c s).phase = .fault := by rw [raise_eq]
@[simp] theorem raise_fcode (c : FaultCode) (s : State) :
    (raise c s).fcode = if s.phase = .fault then s.fcode else c := by rw [raise_eq]

/-! ### The fault code and the phase (rule R35) -/

theorem raise_coherent {c : FaultCode} {s : State} (hc : c ≠ .none) (h : Coherent s) : Coherent (raise c s) := by
  have nonzero : (raise c s).fcode ≠ .none := by
    rw [raise_fcode]
    split
    · next fault => exact fun zero => h.1 zero fault
    · exact hc
  exact ⟨fun zero => absurd zero nonzero, fun notFault => absurd (raise_phase c s) notFault⟩

/-- `START` makes the two agree, `FINALIZE` is accepted in an open session alone, and no other command writes either. -/
theorem effect_coherent {i : Instr} {s : State} (session : needsSession i = true → s.phase = .active) (h : Coherent s) :
    Coherent (effect i s) := by
  obtain ⟨phase, fcode⟩ := effect_phase i s
  unfold Coherent
  rw [phase, fcode]
  cases i with
  | start => exact ⟨fun _ => nofun, fun _ => rfl⟩
  | finalize raw =>
    have notFault : s.phase ≠ .fault := by rw [session rfl]; nofun
    exact ⟨fun _ => nofun, fun _ => h.2 notFault⟩
  | _ => exact h

/-- Settles O41: a fault that is raised brings its code with it, and an accepted command keeps code and phase together. -/
theorem stepKeepsFaultCodeCoherent : Obligations.StepKeepsFaultCodeCoherent := by
  intro s t h stepped
  rcases step_outcomes stepped with rfl | ⟨w, later, _, ⟨c, hc, rfl⟩ | ⟨i, _, session, rfl⟩⟩
  · exact h
  · exact raise_coherent hc h
  · exact effect_coherent session h

/-! ### Stale buffer bytes (rule R33) -/

theorem eq_setBuf_of_sameButStale {s t : State} (h : SameButStale s t) : t = setBuf t.buf s := by
  obtain ⟨registers, _⟩ := h
  rw [← registers]; rfl

theorem sameButStale_refl (s : State) : SameButStale s s := ⟨rfl, fun _ _ => rfl⟩

theorem raise_sameButStale (c : FaultCode) {s t : State} (h : SameButStale s t) :
    SameButStale (raise c s) (raise c t) := by
  obtain ⟨registers, fresh⟩ := h
  rw [eq_setBuf_of_sameButStale ⟨registers, fresh⟩, raise_eq, raise_eq]
  exact ⟨rfl, fresh⟩

theorem respond_sameButStale (status : RespStatus) (d : RespData) {s t : State} (h : SameButStale s t) :
    SameButStale (respond status d s) (respond status d t) := by
  rw [eq_setBuf_of_sameButStale h]
  exact ⟨rfl, h.2⟩

theorem openSession_sameButStale {s t : State} (h : SameButStale s t) :
    SameButStale (openSession s) (openSession t) := by
  rw [eq_setBuf_of_sameButStale h]
  exact ⟨rfl, fun _ below => absurd below (Nat.not_lt_zero _)⟩

/-- Writing `buf[n]` over different stale bytes: the bytes up to and including `n` agree. -/
theorem bufSet_agree {blk blk' : Block} {n : BitVec 6} (fresh : ∀ i : Fin 64, i.val < n.toNat → blk'[i] = blk[i]) (b : Byte)
    (i : Fin 64) (hi : i.val < n.toNat + 1) : (bufSet blk' n b)[i] = (bufSet blk n b)[i] := by
  rw [bufSet_get, bufSet_get]
  split
  · rfl
  · exact fresh i (by omega)

/-- Padding writes every stale byte. -/
theorem bufPad_eq_of_agree {blk blk' : Block} {n : BitVec 6} (fresh : ∀ i : Fin 64, i.val < n.toNat → blk'[i] = blk[i]) :
    bufPad blk' n = bufPad blk n := by
  refine block_ext fun i => ?_
  rw [bufPad_get, bufPad_get]
  split
  · next below => exact fresh i below
  · rfl

/-- The drain comes when no byte is stale any more; short of it one more byte is fresh. -/
theorem absorb_sameButStale (b : Byte) {s t : State} (h : SameButStale s t) : SameButStale (absorb b s) (absorb b t) := by
  have agree := bufSet_agree h.2 b
  rw [eq_setBuf_of_sameButStale h]
  by_cases full : s.n.toNat + 1 = 64
  · have same : bufSet t.buf s.n b = bufSet s.buf s.n b := block_ext fun i => agree i (by omega)
    rw [absorb_drain full, absorb_drain (s := setBuf t.buf s) full]
    show SameButStale _ (drain (setBuf (bufSet t.buf s.n b) s))
    rw [same]
    exact sameButStale_refl _
  · rw [absorb_fill full, absorb_fill (s := setBuf t.buf s) full]
    refine ⟨rfl, fun i below => agree i ?_⟩
    have advanced : (s.n + 1).toNat = s.n.toNat + 1 := by bv_omega
    rwa [setN_n, advanced] at below

theorem closeMessage_eq_of_sameButStale {s t : State} (h : SameButStale s t) : closeMessage t = closeMessage s := by
  have padded : padBuffer (recordLength t) = padBuffer (recordLength s) := by
    rw [eq_setBuf_of_sameButStale h]
    exact congrArg (setBuf · (recordLength s)) (bufPad_eq_of_agree h.2)
  rw [closeMessage, closeMessage, padded]

/-- What an accepted command answers comes from `n`, `L`, `phase` and `fcode`, or from the closed message. -/
theorem effect_sameButStale (i : Instr) {s t : State} (h : SameButStale s t) :
    SameButStale (effect i s) (effect i t) := by
  cases i with
  | start => exact respond_sameButStale _ _ (openSession_sameButStale h)
  | append b => exact respond_sameButStale _ _ (absorb_sameButStale b h)
  | finalize raw =>
    rw [effect, effect, finish, finish, closeMessage_eq_of_sameButStale h]
    exact sameButStale_refl _
  | _ =>
    rw [eq_setBuf_of_sameButStale h]
    exact ⟨rfl, h.2⟩

theorem control_of_sameButStale {s t : State} (h : SameButStale s t) :
    t.cfg = s.cfg ∧ t.phase = s.phase ∧ t.hosts = s.hosts := by
  rw [eq_setBuf_of_sameButStale h]
  exact ⟨rfl, rfl, rfl⟩

/-- Parameter and phase decide whether a command is accepted, and both cores have the same. -/
theorem exec_sameButStale (i : Instr) {s t : State} (h : SameButStale s t) :
    ∃ s' t', exec i s = .next s' ∧ exec i t = .next t' ∧ SameButStale s' t' := by
  obtain ⟨cfg, phase, _⟩ := control_of_sameButStale h
  rcases exec_cases i s with ⟨hw, he⟩ | ⟨hw, hn, hp, he⟩ | ⟨hw, hn, hp, he⟩ | ⟨hw, session⟩ <;> rw [← cfg] at hw
  · exact ⟨_, _, he, exec_illegal hw, raise_sameButStale _ h⟩
  · exact ⟨_, _, he, exec_done hw hn (phase.trans hp), raise_sameButStale _ h⟩
  · exact ⟨_, _, he, exec_fault hw hn (phase.trans hp), respond_sameButStale _ _ h⟩
  · have accepted : exec i s = .next (effect i s) := exec_accepted (cfg ▸ hw) session
    exact ⟨_, _, accepted, exec_accepted hw (phase ▸ session), effect_sameButStale i h⟩

theorem perform_sameButStale (w : Cmd) {s t : State} (h : SameButStale s t) :
    ∃ s' t', perform w s = .next s' ∧ perform w t = .next t' ∧ SameButStale s' t' := by
  cases dec : decode w with
  | ok i =>
    rw [perform_ok dec, perform_ok dec]
    exact exec_sameButStale i h
  | error e =>
    simp only [perform, dec]
    exact ⟨_, _, rfl, rfl, raise_sameButStale _ h⟩

theorem setHosts_sameButStale (q : List (List Cmd)) {s t : State} (h : SameButStale s t) :
    SameButStale (setHosts q s) (setHosts q t) := by
  rw [eq_setBuf_of_sameButStale h]
  exact ⟨rfl, h.2⟩

theorem step_of_noHost {s : State} (h : s.hosts = []) : step s = .next s := by
  simp only [step, nextCommand, h]

theorem step_of_noCommand {s : State} (h : s.hosts = [[]]) : step s = .next s := by
  simp only [step, nextCommand, h]

theorem step_of_severalHosts {s : State} {p q : List Cmd} {r : List (List Cmd)} (h : s.hosts = p :: q :: r) :
    step s = .refused .severalHosts := by
  simp only [step, nextCommand, h]

/-- The commuting diagram of one step: both cores complete, or both are refused for the same reason. -/
theorem step_sameButStale {s t : State} (h : SameButStale s t) :
    (∃ s' t', step s = .next s' ∧ step t = .next t' ∧ SameButStale s' t') ∨
      ∃ r, step s = .refused r ∧ step t = .refused r := by
  obtain ⟨_, _, hosts⟩ := control_of_sameButStale h
  rcases hs : s.hosts with _ | ⟨_ | ⟨w, later⟩, _ | ⟨q, r⟩⟩ <;> rw [hs] at hosts
  · exact .inl ⟨s, t, step_of_noHost hs, step_of_noHost hosts, h⟩
  · exact .inl ⟨s, t, step_of_noCommand hs, step_of_noCommand hosts, h⟩
  · exact .inr ⟨_, step_of_severalHosts hs, step_of_severalHosts hosts⟩
  · rw [step_of_command hs, step_of_command hosts]
    exact .inl (perform_sameButStale w (setHosts_sameButStale [later] h))
  · exact .inr ⟨_, step_of_severalHosts hs, step_of_severalHosts hosts⟩

/-- Settles O47, by induction on the number of steps, for every pair of states: the diagram of one step, stacked. -/
theorem staleBytesAreNeverObserved : Obligations.StaleBytesAreNeverObserved := by
  intro k
  induction k with
  | zero => exact fun s t h => h
  | succ k ih =>
    intro s t h
    rcases step_sameButStale h with ⟨s', t', hs, ht, h'⟩ | ⟨r, hs, ht⟩
    · rw [run_next hs, run_next ht]
      exact ih s' t' h'
    · rw [run_refused hs, run_refused ht]

/-! ### The accumulator (rule R21) -/

/-- The compressions of `FINALIZE` in terms of the state before it, for the total length `l` that it records. -/
theorem closeMessage_acc_of_len {s : State} {l : Len} (hl : l.toNat = (s.len.toNat + s.n.toNat) % 2 ^ 64)
    {image : Block → Block}
    (himage : ∀ blk, image blk = bufWrite (bufWrite blk 14 (lenLo (bitLength l))) 15 (lenHi (bitLength l))) :
    (closeMessage s).acc =
      if 55 < s.n.toNat then compress (compress s.acc (bufPad s.buf s.n)) (image zeroBlock)
      else compress s.acc (image (bufPad s.buf s.n)) := by
  have recorded : (recordLength s).len = l := BitVec.eq_of_toNat_eq ((recordLength_toNat s).trans hl.symm)
  rw [closeMessage_acc, closeMessage_buf, encodeLength_buf, setBuf_buf, setBuf_len, recorded, ← himage]
  split <;> rfl

/-- Settles O44: of the cases of a step only an accepted `START`, `APPEND` or `FINALIZE` reaches the accumulator. -/
theorem accumulatorWriters : Obligations.AccumulatorWriters := by
  constructor
  · intro s t w later i l image hosts dec stepped hl himage
    rw [step_of_command hosts] at stepped
    rcases perform_outcomes stepped with ⟨c, _, rfl, away⟩ | ⟨j, decj, session, rfl⟩
    · rw [raise_acc]
      cases i with
      | start => exact absurd (away _ dec rfl).1 nofun
      | append b => exact (if_neg fun drained => (away _ dec rfl).2 drained.1).symm
      | finalize raw => exact (if_neg (away _ dec rfl).2).symm
      | _ => rfl
    · cases dec.symm.trans decj
      cases i with
      | append b =>
        have drained : s.phase = .active ∧ s.n.toNat = 63 ↔ s.n.toNat + 1 = 64 :=
          ⟨fun ⟨_, full⟩ => by omega, fun full => ⟨session rfl, by omega⟩⟩
        simp only [drained]
        exact absorb_acc b (setHosts [later] s)
      | finalize raw =>
        have closed := closeMessage_acc_of_len (s := setHosts [later] s) hl himage
        exact closed.trans (if_pos (session rfl)).symm
      | _ => rfl
  · intro s t stepped noCommand
    rcases step_outcomes stepped with rfl | ⟨w, later, hosts, ⟨c, _, rfl⟩ | ⟨i, dec, _, _⟩⟩
    · rfl
    · exact raise_acc _ _
    · exact absurd dec (noCommand w later i hosts)

/-! ### The buffer (rules R23, R40) -/

theorem absorb_buf (b : Byte) (s : State) : (absorb b s).buf = bufSet s.buf s.n b := by
  unfold absorb; dsimp only; split <;> rfl

/-- While the message tail is still in its block, `FINALIZE` leaves the bytes below `n`. -/
theorem closeMessage_buf_below {s : State} {k : Fin 64} (below : k.val < s.n.toNat) (one : ¬ 55 < s.n.toNat) :
    (closeMessage s).buf[k] = s.buf[k] := by
  rw [closeMessage_buf, if_neg one, encodeLength_buf, lengthImage_get, if_pos (by omega)]
  exact (bufPad_get s.buf s.n k).trans (if_pos below)

/-- Settles O45: an accepted `APPEND` writes `buf[n]`, an accepted `FINALIZE` what `closeMessage_buf_below` does not keep. -/
theorem bufferWriters : Obligations.BufferWriters := by
  intro s t k stepped changed
  rcases step_outcomes stepped with rfl | ⟨w, later, hosts, ⟨c, _, rfl⟩ | ⟨i, dec, session, rfl⟩⟩
  · exact absurd rfl changed
  · rw [raise_buf] at changed
    exact absurd rfl changed
  · cases i with
    | append b =>
      refine ⟨session rfl, w, later, _, hosts, dec, .inl ⟨b, rfl, ?_⟩⟩
      have written : (effect (.append b) (setHosts [later] s)).buf = bufSet s.buf s.n b := absorb_buf b _
      rw [written, bufSet_get] at changed ⊢
      split at changed
      · next here => exact ⟨here, if_pos here⟩
      · exact absurd rfl changed
    | finalize raw =>
      refine ⟨session rfl, w, later, _, hosts, dec, .inr ⟨raw, rfl, ?_⟩⟩
      by_contra kept
      rw [not_or, not_le] at kept
      exact changed (closeMessage_buf_below (s := setHosts [later] s) kept.1 kept.2)
    | _ => exact absurd rfl changed

/-! ### The length counter (rule R35) -/

/-- A drain adds 64 modulo 2^64, itself a multiple of 64. -/
theorem absorb_len_mod (b : Byte) (s : State) : (absorb b s).len.toNat % 64 = s.len.toNat % 64 := by
  by_cases full : s.n.toNat + 1 = 64
  · rw [absorb_drain full, drain, setN_len, setLen_len, BitVec.toNat_add]
    show (s.len.toNat + 64) % 2 ^ 64 % 64 = s.len.toNat % 64
    omega
  · rw [absorb_fill full]; rfl

theorem effect_lengthAligned {i : Instr} {s : State} (unseeded : isSeed i = false) (h : LengthAligned s) :
    LengthAligned (effect i s) := by
  cases i with
  | start => exact fun _ => rfl
  | append b =>
    intro active
    have before : s.phase = .active := (effect_phase (.append b) s).1.symm.trans active
    exact (absorb_len_mod b s).trans (h before)
  | finalize raw => exact fun active => absurd ((effect_phase (.finalize raw) s).1.symm.trans active) nofun
  | seedLenLo v => cases unseeded
  | seedLenHi v => cases unseeded
  | _ => exact h

/-- Settles O42: a word that is turned away ends in `FAULT`, and of the accepted commands only the seeding ones unalign `L`. -/
theorem stepKeepsLengthAlignedUnlessSeeded : Obligations.StepKeepsLengthAlignedUnlessSeeded := by
  intro s t h stepped unseeded
  rcases step_outcomes stepped with rfl | ⟨w, later, hosts, ⟨c, _, rfl⟩ | ⟨i, dec, _, rfl⟩⟩
  · exact h
  · exact fun active => absurd ((raise_phase c _).symm.trans active) nofun
  · exact effect_lengthAligned (unseeded w later i hosts dec) h

/-! ### The `STATUS` view (rule R29) -/

theorem statusWord_toNat (s : State) :
    (statusWord s).toNat = (fcodeBits s.fcode).toNat * 2 ^ 16 + (phaseBits s.phase).toNat * 2 ^ 8 + s.n.toNat := by
  have := s.n.isLt
  have := (phaseBits s.phase).isLt
  have := (fcodeBits s.fcode).isLt
  simp only [statusWord, BitVec.truncate_eq_setWidth, BitVec.toNat_setWidth, toNat_append_eq]
  simp; omega

theorem extractLsb'_eq_of_toNat {v : Word} {k m : Nat} {x : BitVec m} (h : v.toNat / 2 ^ k % 2 ^ m = x.toNat) :
    v.extractLsb' k m = x :=
  BitVec.eq_of_toNat_eq ((toNat_extract_eq v k m).trans h)

/-- The six fields of rule R29, the reserved bits among them. -/
theorem statusWord_fields (s : State) :
    (statusWord s).extractLsb' 0 6 = s.n ∧ (statusWord s).extractLsb' 6 2 = 0 ∧
    (statusWord s).extractLsb' 8 2 = phaseBits s.phase ∧ (statusWord s).extractLsb' 10 6 = 0 ∧
    (statusWord s).extractLsb' 16 4 = fcodeBits s.fcode ∧ (statusWord s).extractLsb' 20 12 = 0 := by
  have value := statusWord_toNat s
  have hn := s.n.isLt
  have hp := (phaseBits s.phase).isLt
  have hf := (fcodeBits s.fcode).isLt
  refine ⟨?_, ?_, ?_, ?_, ?_, ?_⟩ <;> apply extractLsb'_eq_of_toNat <;> bv_omega

theorem statusWord_powerOn (cfg : Config) (draw : Block) : statusWord (State.powerOn cfg draw) = 0 := by
  dsimp only [statusWord, State.powerOn]
  decide

/-! ### Power-on reset and `START` (rules R34, R180) -/

/-- Settles O39: both states are written out by their definitions. -/
theorem powerOnAndStartValues : Obligations.PowerOnAndStartValues := by
  intro s cfg draw
  refine ⟨effect .start s, rfl, rfl, rfl, fun u hu => ?_⟩
  rcases hu with rfl | rfl <;> exact ⟨rfl, rfl, rfl, rfl, rfl⟩

/-- Settles O40: at power-on the phase is `ACTIVE`, `fcode`, `L` and `n` are 0, and nothing has been answered. -/
theorem resetMeetsInvariants : Obligations.ResetMeetsInvariants :=
  ⟨rfl, fun _ _ => ⟨⟨fun _ => nofun, fun _ => rfl⟩, fun _ => rfl, ⟨nofun, nofun⟩, statusWord_powerOn _ _⟩⟩

/-! ### `READ_STATUS` (rule R143), and which words are legal for one opcode -/

theorem encode_eq_of_decode {w : Cmd} {i : Instr} (h : decode w = .ok i) : encode i = w := by
  unfold decode at h
  split at h
  · next rsv =>
    obtain ⟨op, arg⟩ := decodeOp_ok h
    rw [encode, op, arg, ← rsv, packCmd_fields]
  · cases h

/-- Where an opcode has one command and no operand, its one word is the only legal one. -/
theorem illegal_of_ne_encode {cfg : Config} {w : Cmd} {i : Instr} (hop : w.toNat / 2 ^ 56 = (opcode i).toNat)
    (only : ∀ j, opcode j = opcode i → j = i) (hne : w ≠ encode i) : illegal cfg w = true := by
  refine (illegal_iff cfg w).2 fun j dec => ?_
  have word := encode_eq_of_decode dec
  have sameOp : opcode j = opcode i := by
    rw [← opField_encode j, word]
    exact BitVec.eq_of_toNat_eq ((opField_toNat w).trans hop)
  rw [only j sameOp] at word
  exact absurd word.symm hne

theorem eq_readStatus_of_opcode (j : Instr) (h : opcode j = opcode .readStatus) : j = .readStatus := by
  cases j with
  | readStatus => rfl
  | _ => simp [opcode] at h

/-- Settles O14: the view is `statusWord`, and no word but the encoding of `READ_STATUS` has its opcode and is legal. -/
theorem readStatusReturnsStatusView : Obligations.ReadStatusReturnsStatusView := by
  intro s
  constructor
  · obtain ⟨n, low, phase, mid, fcode, high⟩ := statusWord_fields s
    exact ⟨statusWord s, rfl, n, low, phase, mid, fcode, high⟩
  · intro w hop
    have value : (encode .readStatus).toNat = 0x0600000000000000 := by decide
    split
    · next h => rw [BitVec.eq_of_toNat_eq (h.trans value.symm)]; rfl
    · next h => exact illegal_of_ne_encode (i := .readStatus) hop eq_readStatus_of_opcode fun same => h (same ▸ value)

/-! ### Platforms (rule R37) -/

/-- Settles O49: the step replaces one entry of the list of cores. -/
theorem coresShareNothing : Obligations.CoresShareNothing := by
  intro p p' k stepped
  unfold platformStep at stepped
  split at stepped
  · next s hs =>
    cases stepped
    exact ⟨List.length_set, ⟨s, hs, List.getElem?_set_self k.isLt⟩,
      fun j hj => List.getElem?_set_ne hj.symm⟩
  · cases stepped
  · cases stepped

end Sys2Proof.Machine
end

section
/-!
Proofs about the state's access rules and the sequence of commands (`20_memory.md`). A command neither reads nor writes what
the host has yet to issue (`exec_setHosts`); so runs of words compose, and a run of accepted commands is their effects in
turn (`issueRun_accepted`).
-/

namespace Sys2Proof.Machine

/-! ### Commands and what the host has yet to issue (rule R51) -/

theorem raise_setHosts (c : FaultCode) (q : List (List Cmd)) (s : State) :
    raise c (setHosts q s) = setHosts q (raise c s) := by
  rw [raise_eq, raise_eq]; rfl

theorem absorb_setHosts (b : Byte) (q : List (List Cmd)) (s : State) :
    absorb b (setHosts q s) = setHosts q (absorb b s) := by
  by_cases full : s.n.toNat + 1 = 64
  · rw [absorb_drain full, absorb_drain (s := setHosts q s) full]; rfl
  · rw [absorb_fill full, absorb_fill (s := setHosts q s) full]; rfl

theorem closeMessage_setHosts (q : List (List Cmd)) (s : State) :
    closeMessage (setHosts q s) = setHosts q (closeMessage s) := by
  by_cases two : 55 < s.n.toNat
  · rw [closeMessage_two two, closeMessage_two (s := setHosts q s) two]; rfl
  · rw [closeMessage_one two, closeMessage_one (s := setHosts q s) two]; rfl

theorem effect_setHosts (i : Instr) (q : List (List Cmd)) (s : State) :
    effect i (setHosts q s) = setHosts q (effect i s) := by
  cases i with
  | append b => exact congrArg (respondOk .empty) (absorb_setHosts b q s)
  | finalize raw =>
    simp only [effect, finish, closeMessage_setHosts]
    rfl
  | _ => rfl

theorem exec_setHosts {i : Instr} {s t : State} (q : List (List Cmd)) (h : exec i s = .next t) :
    exec i (setHosts q s) = .next (setHosts q t) := by
  rcases exec_cases i s with ⟨wf, he⟩ | ⟨wf, needs, done, he⟩ | ⟨wf, needs, fault, he⟩ | ⟨wf, session⟩
  · cases he.symm.trans h
    rw [exec_illegal (s := setHosts q s) wf, raise_setHosts]
  · cases he.symm.trans h
    rw [exec_done (s := setHosts q s) wf needs done, raise_setHosts]
  · cases he.symm.trans h
    exact exec_fault (s := setHosts q s) wf needs fault
  · cases (exec_accepted wf session).symm.trans h
    rw [exec_accepted (s := setHosts q s) wf session, effect_setHosts]

theorem perform_setHosts {w : Cmd} {s t : State} (q : List (List Cmd)) (h : perform w s = .next t) :
    perform w (setHosts q s) = .next (setHosts q t) := by
  cases dec : decode w with
  | ok i =>
    rw [perform_ok dec] at h ⊢
    exact exec_setHosts q h
  | error e =>
    simp only [perform, dec] at h ⊢
    cases h
    rw [raise_setHosts]

theorem issueRun_append {ws : List Cmd} (vs : List Cmd) {s t : State} (h : issueRun ws s = .next t) :
    issueRun (ws ++ vs) s = issueRun vs t := by
  induction ws generalizing s with
  | nil =>
    cases (issueRun_nil s).symm.trans h
    rw [issueRun_setHosts, List.nil_append]
  | cons w ws ih =>
    obtain ⟨s', _, performed, _⟩ := perform_answers w (setHosts [ws] s)
    have rest : issueRun ws s' = .next t := (issueRun_cons performed).symm.trans h
    have longer : perform w (setHosts [ws ++ vs] s) = .next (setHosts [ws ++ vs] s') :=
      perform_setHosts (s := setHosts [ws] s) [ws ++ vs] performed
    rw [List.cons_append, issueRun_cons longer, issueRun_setHosts]
    exact ih rest

/-- Settles O11: a run always completes, and `issueRun_append` goes on from the state it leaves. -/
theorem commandSequencesCompose : Obligations.CommandSequencesCompose := by
  intro ws vs s
  obtain ⟨t, first, _⟩ := issueRun_next ws s
  rw [first]
  exact issueRun_append vs first

/-! ### When a step completes (rule R52) -/

theorem step_of_two_le_hosts {s : State} (several : 2 ≤ s.hosts.length) : step s = .refused .severalHosts := by
  rcases hs : s.hosts with _ | ⟨p, _ | ⟨q, r⟩⟩
  · simp [hs] at several
  · simp [hs] at several
  · exact step_of_severalHosts hs

theorem step_of_hosts_le_one {s : State} (single : s.hosts.length ≤ 1) :
    ∃ t, step s = .next t ∧ t.cfg = s.cfg ∧ t.hosts.length = s.hosts.length := by
  rcases hs : s.hosts with _ | ⟨_ | ⟨w, later⟩, _ | ⟨q, r⟩⟩
  · exact ⟨s, step_of_noHost hs, rfl, by rw [hs]⟩
  · exact ⟨s, step_of_noCommand hs, rfl, by rw [hs]⟩
  · simp [hs] at single
  · obtain ⟨t, _, performed, _, hosts, cfg⟩ := perform_answers w (setHosts [later] s)
    exact ⟨t, (step_of_command hs).trans performed, cfg, by rw [hosts]; rfl⟩
  · simp [hs] at single

/-- Settles O43: for at most one host the step completes, so a refused step has several, whose refusal has one name. -/
theorem stepIsTotalForOneHost : Obligations.StepIsTotalForOneHost := by
  refine fun s => ⟨step_of_hosts_le_one, fun r refused => ?_⟩
  have several : 2 ≤ s.hosts.length := by
    by_contra few
    obtain ⟨t, completed, _⟩ := step_of_hosts_le_one (s := s) (by omega)
    cases completed.symm.trans refused
  cases (step_of_two_le_hosts several).symm.trans refused
  exact ⟨rfl, several⟩

/-- Settles O8: the three cases of the port that issue no command. -/
theorem stepIdlesOrRefusesWithoutOneCommand : Obligations.StepIdlesOrRefusesWithoutOneCommand :=
  ⟨fun _ silent => silent.elim step_of_noHost step_of_noCommand, fun _ => step_of_two_le_hosts⟩

/-! ### Byte order (rules R42, R44) -/

/-- Settles O23: each concatenation shifts the bytes before it by 8 bits. -/
theorem messageWordsAreLittleEndian : Obligations.MessageWordsAreLittleEndian := by
  intro blk j
  rw [bufRead, toNat_append_eq, toNat_append_eq, toNat_append_eq]
  ring

theorem digestBytes_eq_ofFn (h : Acc) :
    digestBytes h = List.ofFn fun k : Fin 16 => wordByte h[k.val / 4] (k.val % 4) := rfl

/-- Settles O28: byte `k` of the digest is `wordByte` of its word, whose value is a quotient by a power of 256. -/
theorem digestBytesAreLittleEndian : Obligations.DigestBytesAreLittleEndian := by
  intro h
  refine ⟨?_, fun k => ⟨wordByte h[k.val / 4] (k.val % 4), ?_, wordByte_toNat _ _⟩, rfl⟩
  · rw [digestBytes_eq_ofFn, List.length_ofFn]
  · rw [digestBytes_eq_ofFn, List.getElem?_ofFn, dif_pos k.isLt]

/-! ### Reads (rule R48) -/

/-- What a read answers does not depend on the responses before it. -/
theorem exec_read {i : Instr} (read : isRead i = true) (s : State) :
    ∃ v : Word, ∀ rs, exec i { s with resps := rs } = .next { s with resps := rs ++ [⟨.ok, .words [v]⟩] } := by
  cases i with
  | readStatus => exact ⟨statusWord s, fun _ => rfl⟩
  | readLenLo => exact ⟨lenLo s.len, fun _ => rfl⟩
  | readLenHi => exact ⟨lenHi s.len, fun _ => rfl⟩
  | _ => cases read

/-- Settles O46: `exec_read` for the responses before the first read and before the second. -/
theorem readsHaveNoSideEffects : Obligations.ReadsHaveNoSideEffects := by
  intro s i read
  obtain ⟨v, answer⟩ := exec_read read s
  refine ⟨v, _, answer s.resps, rfl, (answer _).trans ?_⟩
  rw [List.append_assoc]; rfl

/-! ### Runs of accepted commands -/

theorem decode_encode (i : Instr) : decode (encode i) = .ok i := by
  rw [decode, rsvField_encode, if_pos rfl, opField_encode, argField_encode]
  cases i with
  | append b => simp [decodeOp, opcode, argument, aboveByte_argOfByte, byteOperand_argOfByte]
  | finalize raw => simp [decodeOp, opcode, argument, aboveFlag_argOfFlag, rawOperand_argOfFlag]
  | _ => rfl

theorem issueRun_accepted {i : Instr} {s : State} (wf : wellFormed s.cfg i = true)
    (session : needsSession i = true → s.phase = .active) (ws : List Cmd) :
    issueRun (encode i :: ws) s = issueRun ws (effect i s) := by
  rw [issueRun_encode (decode_encode i) (exec_setHosts [ws] (exec_accepted wf session)), issueRun_setHosts]

/-- A command that leaves a session open, one byte after it, and the command again. -/
theorem issueRun_around_append {i : Instr} {s : State} (wf : wellFormed s.cfg i = true)
    (session : needsSession i = true → s.phase = .active) (opened : (effect i s).phase = .active) (b : Byte) :
    issueRun (assemble [.cmd i, .cmd (.append b)]) s = .next (setHosts [[]] (effect (.append b) (effect i s))) ∧
    issueRun (assemble [.cmd i, .cmd (.append b), .cmd i]) s =
      .next (setHosts [[]] (effect i (effect (.append b) (effect i s)))) := by
  have absorbed : ∀ ws, issueRun (encode i :: encode (.append b) :: ws) s =
      issueRun ws (effect (.append b) (effect i s)) := fun ws => by
    rw [issueRun_accepted wf session, issueRun_accepted rfl fun _ => opened]
  have stillOpen : (effect (.append b) (effect i s)).phase = .active :=
    (effect_phase (.append b) (effect i s)).1.trans opened
  have stillThere : wellFormed (effect (.append b) (effect i s)).cfg i = true := by
    obtain ⟨_, _, _, cfg⟩ := effect_answers i s
    obtain ⟨_, _, _, cfg'⟩ := effect_answers (.append b) (effect i s)
    rw [cfg', cfg, wf]
  exact ⟨absorbed [], (absorbed [encode i]).trans (issueRun_accepted stillThere (fun _ => stillOpen) [])⟩

/-! ### A command issued again (rules R48, R140, R183) -/

/-- The second answer makes the second state another one. -/
theorem exec_twice_answers {s t u : State} {i : Instr} (first : exec i s = .next t) (second : exec i t = .next u) :
    ∃ r r', t.resps = s.resps ++ [r] ∧ u.resps = s.resps ++ [r, r'] ∧ u ≠ t := by
  obtain ⟨t', r, ht, rt, _⟩ := exec_answers i s
  obtain ⟨u', r', hu, ru, _⟩ := exec_answers i t
  cases first.symm.trans ht
  cases second.symm.trans hu
  refine ⟨r, r', rt, by rw [ru, rt, List.append_assoc]; rfl, fun same => ?_⟩
  rw [same] at ru
  simp at ru

theorem append_n_toNat (b : Byte) (s : State) : (effect (.append b) s).n.toNat = (s.n.toNat + 1) % 64 := by
  show (absorb b s).n.toNat = _
  by_cases full : s.n.toNat + 1 = 64
  · rw [absorb_drain full, full]; rfl
  · rw [absorb_fill full, setN_n]; bv_omega

theorem append_buf (b : Byte) (s : State) : (effect (.append b) s).buf = bufSet s.buf s.n b := absorb_buf b s

theorem append_len_of_full {b : Byte} {s : State} (full : s.n.toNat = 63) :
    (effect (.append b) s).len.toNat = (s.len.toNat + 64) % 2 ^ 64 := by
  show (absorb b s).len.toNat = _
  rw [absorb_drain (by omega)]
  exact BitVec.toNat_add s.len 64

/-- With room for two bytes neither drains the buffer, and the second lands after the first. -/
theorem append_twice {s : State} {b : Byte} (active : s.phase = .active) (room : s.n.toNat ≤ 61) :
    ∃ t u, exec (.append b) s = .next t ∧ exec (.append b) t = .next u ∧
      u.n.toNat = s.n.toNat + 2 ∧ ∀ k : Fin 64, k.val = s.n.toNat ∨ k.val = s.n.toNat + 1 → u.buf[k] = b := by
  have stillActive : (effect (.append b) s).phase = .active := (effect_phase (.append b) s).1.trans active
  have advanced : (effect (.append b) s).n.toNat = s.n.toNat + 1 := by rw [append_n_toNat]; omega
  refine ⟨_, _, exec_accepted rfl fun _ => active, exec_accepted rfl fun _ => stillActive, ?_, fun k written => ?_⟩
  · rw [append_n_toNat, advanced]; omega
  · rw [append_buf, bufSet_get, append_buf, bufSet_get, advanced]
    rcases written with first | second
    · rw [if_pos first, ite_self]
    · rw [if_pos second]

theorem finalize_twice {s : State} (raw : Bool) (active : s.phase = .active) :
    ∃ t u, exec (.finalize raw) s = .next t ∧ exec (.finalize raw) t = .next u ∧
      t.phase = .done ∧ u.phase = .fault ∧ u.fcode = .sequenceError := by
  have done : (effect (.finalize raw) s).phase = .done := (effect_phase (.finalize raw) s).1
  refine ⟨_, _, exec_accepted rfl fun _ => active, exec_done rfl rfl done, done, raise_phase _ _, ?_⟩
  rw [raise_fcode, done]; rfl

theorem start_around_append (s : State) (b : Byte) :
    ∃ t u, issueRun (assemble [.cmd .start, .cmd (.append b)]) s = .next t ∧
      issueRun (assemble [.cmd .start, .cmd (.append b), .cmd .start]) s = .next u ∧ t.n.toNat = 1 ∧ u.n.toNat = 0 := by
  obtain ⟨run, again⟩ := issueRun_around_append (i := .start) (s := s) rfl nofun rfl b
  exact ⟨_, _, run, again, append_n_toNat b (effect .start s), rfl⟩

theorem seedLenLo_around_drain {s : State} (b : Byte) (v : Word) (active : s.phase = .active)
    (enabled : s.cfg.seedEnabled = true) (full : s.n.toNat = 63) :
    ∃ t u, issueRun (assemble [.cmd (.seedLenLo v), .cmd (.append b)]) s = .next t ∧
      issueRun (assemble [.cmd (.seedLenLo v), .cmd (.append b), .cmd (.seedLenLo v)]) s = .next u ∧
      t.len.toNat % 2 ^ 32 = (v.toNat + 64) % 2 ^ 32 ∧ u.len.toNat % 2 ^ 32 = v.toNat := by
  obtain ⟨run, again⟩ := issueRun_around_append (i := .seedLenLo v) (s := s) enabled (fun _ => active) active b
  have drained : (effect (.append b) (effect (.seedLenLo v) s)).len.toNat =
      ((withLenLo s.len v).toNat + 64) % 2 ^ 64 := append_len_of_full (s := effect (.seedLenLo v) s) full
  have seeded := withLenLo_toNat (effect (.append b) (effect (.seedLenLo v) s)).len v
  rw [withLenLo_toNat] at drained
  have := v.isLt
  refine ⟨_, _, run, again, ?_, ?_⟩
  · rw [setHosts_len]; omega
  · exact (congrArg (· % 2 ^ 32) seeded).trans (by omega)

/-- The drain carries out of the low half of `L`. -/
theorem seedLenHi_around_drain {s : State} (b : Byte) (v : Word) (active : s.phase = .active)
    (enabled : s.cfg.seedEnabled = true) (full : s.n.toNat = 63) (carries : 2 ^ 32 ≤ s.len.toNat % 2 ^ 32 + 64) :
    ∃ t u, issueRun (assemble [.cmd (.seedLenHi v), .cmd (.append b)]) s = .next t ∧
      issueRun (assemble [.cmd (.seedLenHi v), .cmd (.append b), .cmd (.seedLenHi v)]) s = .next u ∧
      t.len.toNat / 2 ^ 32 = (v.toNat + 1) % 2 ^ 32 ∧ u.len.toNat / 2 ^ 32 = v.toNat := by
  obtain ⟨run, again⟩ := issueRun_around_append (i := .seedLenHi v) (s := s) enabled (fun _ => active) active b
  have drained : (effect (.append b) (effect (.seedLenHi v) s)).len.toNat =
      ((withLenHi s.len v).toNat + 64) % 2 ^ 64 := append_len_of_full (s := effect (.seedLenHi v) s) full
  have seeded := withLenHi_toNat (effect (.append b) (effect (.seedLenHi v) s)).len v
  rw [withLenHi_toNat] at drained
  have := v.isLt
  refine ⟨_, _, run, again, ?_, ?_⟩
  · rw [setHosts_len]; omega
  · exact (congrArg (· / 2 ^ 32) seeded).trans (by omega)

/-- In `FAULT` a command that needs a session is answered and leaves the registers, whether it is illegal or turned away. -/
theorem exec_sameRegisters_of_fault {i : Instr} {s t : State} (needs : needsSession i = true) (fault : s.phase = .fault)
    (h : exec i s = .next t) : SameRegisters s t := by
  have silent : exec i s = .next (respondFault s) := by
    cases wf : wellFormed s.cfg i with
    | false => rw [exec_illegal wf, respondFault_eq_raise fault]
    | true => exact exec_fault wf needs fault
  cases silent.symm.trans h
  exact ⟨rfl, rfl, rfl, rfl, rfl, rfl⟩

/-- `START` writes constants and a seeding command its operand, whatever the registers held. -/
theorem effect_sameRegisters_again {i : Instr} (hi : i = .start ∨ isSeed i = true) (s : State) :
    SameRegisters (effect i s) (effect i (effect i s)) := by
  cases i with
  | start => exact ⟨rfl, rfl, rfl, rfl, rfl, rfl⟩
  | seedLenLo v => simp [SameRegisters, effect, respondOk, respond, withLenLo_idem]
  | seedLenHi v => simp [SameRegisters, effect, respondOk, respond, withLenHi_idem]
  | _ => simp [isSeed] at hi

theorem effect_session_of_isSeed {i : Instr} (seed : isSeed i = true) (s : State) :
    needsSession i = true ∧ (effect i s).phase = s.phase ∧ (effect i s).cfg = s.cfg := by
  cases i with
  | seedLenLo v => exact ⟨rfl, rfl, rfl⟩
  | seedLenHi v => exact ⟨rfl, rfl, rfl⟩
  | _ => cases seed

theorem exec_fault_or_accepted {i : Instr} {s t : State} (h : exec i s = .next t) :
    t.phase = .fault ∨ wellFormed s.cfg i = true ∧ (needsSession i = true → s.phase = .active) ∧ t = effect i s := by
  rcases exec_cases i s with ⟨_, he⟩ | ⟨_, _, _, he⟩ | ⟨_, _, fault, he⟩ | ⟨wf, session⟩
  · cases he.symm.trans h; exact .inl (raise_phase _ _)
  · cases he.symm.trans h; exact .inl (raise_phase _ _)
  · cases he.symm.trans h; exact .inl fault
  · cases (exec_accepted wf session).symm.trans h; exact .inr ⟨wf, session, rfl⟩

theorem exec_sameRegisters_again {s t u : State} {i : Instr} (hi : i = .start ∨ isSeed i = true)
    (first : exec i s = .next t) (second : exec i t = .next u) : SameRegisters t u := by
  rcases hi with rfl | seed
  · have opens : ∀ s, exec .start s = .next (effect .start s) := fun _ => rfl
    cases (opens s).symm.trans first
    cases (opens _).symm.trans second
    exact effect_sameRegisters_again (.inl rfl) s
  · obtain ⟨needs, phase, cfg⟩ := effect_session_of_isSeed seed s
    rcases exec_fault_or_accepted first with fault | ⟨wf, session, rfl⟩
    · exact exec_sameRegisters_of_fault needs fault second
    · cases (exec_accepted (cfg ▸ wf) fun _ => phase.trans (session needs)).symm.trans second
      exact effect_sameRegisters_again (.inr seed) s

/-- Settles O50, clause by clause. -/
theorem repetitionActsAgain : Obligations.RepetitionActsAgain :=
  ⟨fun _ _ _ _ => exec_twice_answers, fun _ _ => append_twice, fun _ => finalize_twice, start_around_append,
    fun _ => seedLenLo_around_drain, fun _ => seedLenHi_around_drain, fun _ _ _ _ => exec_sameRegisters_again⟩

end Sys2Proof.Machine
end

section
/-!
Proofs about the command format (`30_encoding.md`). A row of the opcode table is the set of words of one kind of command
(`RowOf`); rule R63 is a condition on the three fields of a word (`IllegalFields`); what a core answers to a word is said
once, in `perform_responds`; a line of a listing is read as its mnemonic and its operands (`readLine_writeLine`).
-/

namespace Sys2Proof.Machine

/-! ### The encoder and the decoder (rules R60 to R62) -/

/-- Settles O1: the fields of an encoded command are its opcode, 0 and its operand, which the decoder takes row by row. -/
theorem decodeInvertsEncode : Obligations.DecodeInvertsEncode := decode_encode

/-- Settles O2: an accepted word has the three fields of the encoding. -/
theorem acceptedWordIsItsEncoding : Obligations.AcceptedWordIsItsEncoding := fun _ _ => encode_eq_of_decode

/-- Settles O4: the decoder computes. -/
theorem specWordsDecode : Obligations.SpecWordsDecode := by
  unfold Obligations.SpecWordsDecode
  decide

/-! ### The opcode table (rule R61) -/

/-- The row `r` stands for the commands `cmd x` with the opcode `op`: its mask leaves out the low `k` bits, which are the
operand `x`. -/
structure RowOf (r : OpcodeRow) (op : Byte) (k : Nat) (cmd : BitVec k → Instr) : Prop where
  width : k ≤ 56
  mask : r.mask = BitVec.allOnes 64 <<< k
  matchBits : r.matchBits = packCmd op 0 0
  opcode : ∀ x, opcode (cmd x) = op
  argument : ∀ x, (argument (cmd x)).toNat = x.toNat
  mnemonic : ∀ i, mnemonic i = r.mnemonic ↔ ∃ x, i = cmd x

/-- Each row of the table, with its operand. -/
theorem exists_rowOf {r : OpcodeRow} (mem : r ∈ opcodeTable) : ∃ op k cmd, RowOf r op k cmd := by
  simp only [opcodeTable, List.mem_cons, List.not_mem_nil, or_false] at mem
  rcases mem with rfl | rfl | rfl | rfl | rfl | rfl | rfl | rfl
  · exact ⟨0x01, 0, fun _ => .start, by decide, by decide, by decide, fun _ => rfl, by decide,
      fun i => by cases i <;> simp [mnemonic]⟩
  · exact ⟨0x02, 8, .append, by decide, by decide, by decide, fun _ => rfl, argOfByte_toNat,
      fun i => by cases i <;> simp [mnemonic]⟩
  · refine ⟨0x03, 1, fun x => .finalize (x.getLsbD 0), by decide, by decide, by decide, fun _ => rfl, by decide,
      fun i => ?_⟩
    cases i with
    | finalize raw => exact ⟨fun _ => ⟨BitVec.ofBool raw, by cases raw <;> rfl⟩, fun _ => rfl⟩
    | _ => simp [mnemonic]
  · exact ⟨0x04, 32, .seedLenLo, by decide, by decide, by decide, fun _ => rfl, fun _ => rfl,
      fun i => by cases i <;> simp [mnemonic]⟩
  · exact ⟨0x05, 32, .seedLenHi, by decide, by decide, by decide, fun _ => rfl, fun _ => rfl,
      fun i => by cases i <;> simp [mnemonic]⟩
  · exact ⟨0x06, 0, fun _ => .readStatus, by decide, by decide, by decide, fun _ => rfl, by decide,
      fun i => by cases i <;> simp [mnemonic]⟩
  · exact ⟨0x07, 0, fun _ => .readLenLo, by decide, by decide, by decide, fun _ => rfl, by decide,
      fun i => by cases i <;> simp [mnemonic]⟩
  · exact ⟨0x08, 0, fun _ => .readLenHi, by decide, by decide, by decide, fun _ => rfl, by decide,
      fun i => by cases i <;> simp [mnemonic]⟩

theorem toNat_and_allOnes_shiftLeft (w : Cmd) (k : Nat) :
    (w &&& BitVec.allOnes 64 <<< k).toNat = w.toNat / 2 ^ k * 2 ^ k := by
  have cleared : w &&& BitVec.allOnes 64 <<< k = w >>> k <<< k := by
    ext j hj
    simp only [BitVec.getElem_and, BitVec.getElem_shiftLeft, BitVec.getElem_ushiftRight, BitVec.getElem_allOnes]
    by_cases low : j < k
    · simp [low]
    · simp [low, show k + (j - k) = j by omega, hj]
  have noOverflow : w.toNat / 2 ^ k * 2 ^ k < 2 ^ 64 := (Nat.div_mul_le_self _ _).trans_lt w.isLt
  rw [cleared, BitVec.toNat_shiftLeft, BitVec.toNat_ushiftRight, Nat.shiftLeft_eq, Nat.shiftRight_eq_div_pow,
    Nat.mod_eq_of_lt noOverflow]

theorem RowOf.accepts_iff {r : OpcodeRow} {op : Byte} {k : Nat} {cmd : BitVec k → Instr} (h : RowOf r op k cmd)
    (w : Cmd) : r.accepts w = true ↔ ∃ x, encode (cmd x) = w := by
  have bits : r.accepts w = true ↔ w.toNat / 2 ^ k * 2 ^ k = r.matchBits.toNat := by
    rw [OpcodeRow.accepts, beq_iff_eq, ← BitVec.toNat_inj, h.mask, toNat_and_allOnes_shiftLeft]
  have base : r.matchBits.toNat = op.toNat * 2 ^ 56 := by
    rw [h.matchBits, packCmd_toNat]
    simp
  have value : ∀ x, (encode (cmd x)).toNat = r.matchBits.toNat + x.toNat := fun x => by
    rw [encode_toNat, h.opcode, h.argument, base]
  rw [bits]
  constructor
  · intro high
    refine ⟨BitVec.ofNat k w.toNat, BitVec.eq_of_toNat_eq ?_⟩
    rw [value, ← high, BitVec.toNat_ofNat, Nat.div_add_mod']
  · rintro ⟨x, rfl⟩
    obtain ⟨q, hq⟩ : 2 ^ k ∣ r.matchBits.toNat := base ▸ (Nat.pow_dvd_pow 2 h.width).mul_left _
    rw [value, hq, Nat.mul_add_div (by positivity), Nat.div_eq_of_lt x.isLt, Nat.add_zero, Nat.mul_comm]

/-- Settles O3: a row accepts the words its commands are encoded as, and an encoding decodes to its command alone. -/
theorem decodeMatchesOpcodeTable : Obligations.DecodeMatchesOpcodeTable := by
  intro w r mem
  obtain ⟨op, k, cmd, row⟩ := exists_rowOf mem
  rw [row.accepts_iff]
  constructor
  · rintro ⟨x, rfl⟩
    exact ⟨cmd x, decode_encode _, (row.mnemonic _).2 ⟨x, rfl⟩⟩
  · rintro ⟨i, dec, named⟩
    obtain ⟨x, rfl⟩ := (row.mnemonic i).1 named
    exact ⟨x, encode_eq_of_decode dec⟩

/-! ### Illegal words (rule R63) -/

/-- The conditions of rule R63 on the numbers `OP`, `RSV` and `ARG` of a word. -/
abbrev IllegalFields (cfg : Config) (op rsv arg : Nat) : Prop :=
  op = 0 ∨ 9 ≤ op ∨ rsv ≠ 0 ∨ ((op = 1 ∨ op = 6 ∨ op = 7 ∨ op = 8) ∧ arg ≠ 0) ∨ (op = 2 ∧ arg / 2 ^ 8 ≠ 0) ∨
    (op = 3 ∧ arg / 2 ≠ 0) ∨ ((op = 4 ∨ op = 5) ∧ cfg.seedEnabled = false)

theorem fields_of_decode {w : Cmd} {i : Instr} (h : decode w = .ok i) :
    w.toNat / 2 ^ 56 = (opcode i).toNat ∧ w.toNat / 2 ^ 32 % 2 ^ 24 = 0 ∧ w.toNat % 2 ^ 32 = (argument i).toNat := by
  rw [← encode_eq_of_decode h, ← opField_toNat, ← rsvField_toNat, ← argField_toNat, opField_encode, rsvField_encode,
    argField_encode]
  exact ⟨rfl, rfl, rfl⟩

theorem decode_of_fields {w : Cmd} {i : Instr} (op : w.toNat / 2 ^ 56 = (opcode i).toNat)
    (rsv : w.toNat / 2 ^ 32 % 2 ^ 24 = 0) (arg : w.toNat % 2 ^ 32 = (argument i).toNat) : decode w = .ok i := by
  have word : encode i = w := by
    apply BitVec.eq_of_toNat_eq
    rw [encode_toNat]
    omega
  rw [← word, decode_encode]

/-- A command of this core has none of the conditions. -/
theorem not_illegalFields (cfg : Config) {i : Instr} (wf : wellFormed cfg i = true) :
    ¬ IllegalFields cfg (opcode i).toNat 0 (argument i).toNat := by
  cases i with
  | append b =>
    have zero : b.toNat / 2 ^ 8 = 0 := Nat.div_eq_of_lt b.isLt
    simpa [IllegalFields, opcode, argument, argOfByte_toNat] using zero
  | finalize raw => cases raw <;> simp [IllegalFields, opcode, argument, argOfFlag_toNat]
  | seedLenLo v => simp [IllegalFields, opcode, show cfg.seedEnabled = true from wf]
  | seedLenHi v => simp [IllegalFields, opcode, show cfg.seedEnabled = true from wf]
  | _ => simp [IllegalFields, opcode, argument]

/-- A word with none of the conditions is one of the eight rows. -/
theorem exists_decode_of_not_illegalFields {cfg : Config} {w : Cmd}
    (h : ¬ IllegalFields cfg (w.toNat / 2 ^ 56) (w.toNat / 2 ^ 32 % 2 ^ 24) (w.toNat % 2 ^ 32)) :
    ∃ i, decode w = .ok i ∧ wellFormed cfg i = true := by
  have argLt := Nat.mod_lt w.toNat (show 0 < 2 ^ 32 by decide)
  simp only [IllegalFields, not_or, not_and, not_le, ne_eq, not_not, Bool.not_eq_false] at h
  generalize hop : w.toNat / 2 ^ 56 = op, hrsv : w.toNat / 2 ^ 32 % 2 ^ 24 = rsv, harg : w.toNat % 2 ^ 32 = arg at h argLt
  obtain ⟨nonzero, below, rfl, noArg, byteArg, flagArg, seeding⟩ := h
  have legal : ∀ i : Instr, op = (opcode i).toNat → arg = (argument i).toNat → decode w = .ok i := fun i ho ha =>
    decode_of_fields (hop.trans ho) hrsv (harg.trans ha)
  have ops : op = 1 ∨ op = 2 ∨ op = 3 ∨ op = 4 ∨ op = 5 ∨ op = 6 ∨ op = 7 ∨ op = 8 := by omega
  rcases ops with rfl | rfl | rfl | rfl | rfl | rfl | rfl | rfl
  · exact ⟨.start, legal _ rfl (noArg (by decide)), rfl⟩
  · refine ⟨.append (BitVec.ofNat 8 arg), legal _ rfl ?_, rfl⟩
    rw [argument, argOfByte_toNat, BitVec.toNat_ofNat]
    have := byteArg rfl
    omega
  · refine ⟨.finalize (arg == 1), legal _ rfl ?_, rfl⟩
    have := flagArg rfl
    have bit : arg = 0 ∨ arg = 1 := by omega
    rcases bit with rfl | rfl <;> rfl
  · exact ⟨.seedLenLo (BitVec.ofNat 32 arg), legal _ rfl (Nat.mod_eq_of_lt argLt).symm, seeding (by decide)⟩
  · exact ⟨.seedLenHi (BitVec.ofNat 32 arg), legal _ rfl (Nat.mod_eq_of_lt argLt).symm, seeding (by decide)⟩
  · exact ⟨.readStatus, legal _ rfl (noArg (by decide)), rfl⟩
  · exact ⟨.readLenLo, legal _ rfl (noArg (by decide)), rfl⟩
  · exact ⟨.readLenHi, legal _ rfl (noArg (by decide)), rfl⟩

theorem illegal_of_illegalFields {cfg : Config} {w : Cmd}
    (h : IllegalFields cfg (w.toNat / 2 ^ 56) (w.toNat / 2 ^ 32 % 2 ^ 24) (w.toNat % 2 ^ 32)) : illegal cfg w = true := by
  refine (illegal_iff cfg w).2 fun i dec => ?_
  obtain ⟨op, rsv, arg⟩ := fields_of_decode dec
  rw [op, rsv, arg] at h
  exact Bool.eq_false_iff.2 fun wf => not_illegalFields cfg wf h

/-- Settles O6: by its fields a word is illegal, which `raise` answers, or it is a command of this core. -/
theorem illegalWordFaultsInEveryPhase : Obligations.IllegalWordFaultsInEveryPhase := by
  rintro s w later op rsv arg hosts rfl rfl rfl
  rw [step_of_command hosts]
  split
  · next conditions =>
    rw [perform_illegal (s := setHosts [later] s) (illegal_of_illegalFields conditions), raise_eq]
    rfl
  · next legal =>
    obtain ⟨i, dec, wf⟩ := exists_decode_of_not_illegalFields legal
    exact ⟨i, dec, (fields_of_decode dec).1.symm, wf, perform_ok dec _⟩

/-! ### Responses (rules R64 to R66) -/

/-- Settles O7: a step takes the word from the host, and `perform` dispatches the decoded command. -/
theorem stepPerformsDecodedCommand : Obligations.StepPerformsDecodedCommand :=
  fun _ _ _ _ hosts dec => (step_of_command hosts).trans (perform_ok dec _)

/-- The data of the `OK` response of an accepted command (rule R65). -/
def answer (i : Instr) (s : State) : RespData :=
  match i with
  | .finalize raw => digestData raw (effect i s).acc
  | .readStatus => .words [statusWord s]
  | .readLenLo => .words [lenLo s.len]
  | .readLenHi => .words [lenHi s.len]
  | _ => .empty

theorem effect_resps (i : Instr) (s : State) : (effect i s).resps = s.resps ++ [⟨.ok, answer i s⟩] := by
  cases i with
  | append b =>
    obtain ⟨_, _, _, _, resps⟩ := absorb_keeps b s
    exact congrArg (· ++ _) resps
  | finalize raw =>
    obtain ⟨_, _, _, _, _, resps, _⟩ := closeMessage_keeps s
    exact congrArg (· ++ _) resps
  | _ => rfl

/-- What comes of a command word: a `FAULT` response without data, for cause, or the answer of an accepted command. -/
theorem perform_responds (w : Cmd) (s : State) :
    ∃ t r, perform w s = .next t ∧ t.hosts = s.hosts ∧ t.resps = s.resps ++ [r] ∧
      ((r = ⟨.fault, .empty⟩ ∧
        (illegal s.cfg w = true ∨ ∃ i, decode w = .ok i ∧ needsSession i = true ∧ s.phase ≠ .active)) ∨
      ∃ i, decode w = .ok i ∧ wellFormed s.cfg i = true ∧ (needsSession i = true → s.phase = .active) ∧
        t = effect i s ∧ r = ⟨.ok, answer i s⟩) := by
  obtain ⟨t, r, performed, resps, hosts, _⟩ := perform_answers w s
  refine ⟨t, r, performed, hosts, resps, ?_⟩
  have latest : ∀ r', t.resps = s.resps ++ [r'] → r = r' := fun r' h => by simpa [resps] using h
  rcases perform_cases performed with ⟨illegal, rfl⟩ | ⟨i, dec, _, needs, done, rfl⟩ | ⟨i, dec, _, needs, fault, rfl⟩ |
    ⟨i, dec, wf, session, rfl⟩
  · exact .inl ⟨latest _ (by rw [raise_eq]), .inl illegal⟩
  · exact .inl ⟨latest _ (by rw [raise_eq]), .inr ⟨i, dec, needs, by simp [done]⟩⟩
  · exact .inl ⟨latest _ rfl, .inr ⟨i, dec, needs, by simp [fault]⟩⟩
  · exact .inr ⟨i, dec, wf, session, rfl, latest _ (effect_resps i s)⟩

/-- Settles O9: the answer of each command is the data of its row. -/
theorem everyCommandGetsOneResponse : Obligations.EveryCommandGetsOneResponse := by
  intro s w later hosts
  rw [step_of_command hosts]
  obtain ⟨t, r, performed, remaining, resps, ⟨rfl, _⟩ | ⟨i, dec, _, _, rfl, rfl⟩⟩ :=
    perform_responds w (setHosts [later] s)
  · exact ⟨t, _, performed, remaining, resps, fun _ => rfl, nofun⟩
  · refine ⟨_, _, performed, remaining, resps, nofun, fun _ => ⟨i, dec, ?_⟩⟩
    cases i with
    | finalize raw =>
      cases raw with
      | true => rfl
      | false => exact ⟨_, rfl, rfl, rfl⟩
    | readLenLo => exact ⟨_, rfl, lenLo_toNat _⟩
    | readLenHi => exact ⟨_, rfl, lenHi_toNat _⟩
    | _ => rfl

/-- Settles O10: a legal command that has the session it needs is answered `OK`. -/
theorem faultResponseExactlyOnMisuse : Obligations.FaultResponseExactlyOnMisuse := by
  intro s w later hosts
  rw [step_of_command hosts]
  obtain ⟨t, r, performed, _, resps, ⟨rfl, cause⟩ | ⟨i, dec, wf, session, _, rfl⟩⟩ :=
    perform_responds w (setHosts [later] s)
  · exact ⟨t, _, performed, resps, fun _ => cause, fun _ => rfl⟩
  · refine ⟨t, _, performed, resps, nofun, fun misuse => ?_⟩
    rcases misuse with illegal | ⟨j, decj, needs, closed⟩
    · have notWf : wellFormed s.cfg i = false := (illegal_iff _ _).1 illegal i dec
      exact absurd (wf.symm.trans notWf) nofun
    · cases dec.symm.trans decj
      exact absurd (session needs) closed

/-! ### Listings (rules R67 to R70) -/

theorem withLenHi_withLenLo (l v : Len) : withLenHi (withLenLo l (lenLo v)) (lenHi v) = v := by
  apply BitVec.eq_of_toNat_eq
  rw [withLenHi_toNat, withLenLo_toNat, lenHi_toNat, lenLo_toNat]
  omega

/-- The two commands of `SEED_LEN v` make `L` equal to `v`, each answered `OK`. -/
theorem effect_seedLen (v : Len) (s : State) :
    effect (.seedLenHi (lenHi v)) (effect (.seedLenLo (lenLo v)) s) =
      { s with len := v, resps := s.resps ++ [⟨.ok, .empty⟩, ⟨.ok, .empty⟩] } := by
  simp [effect, respondOk, respond, addResp, setLen, withLenHi_withLenLo]

theorem issueRun_seedLen {s : State} (active : s.phase = .active) (enabled : s.cfg.seedEnabled = true) (v : Len)
    (ws : List Cmd) :
    issueRun ((seedLen v).map encode ++ ws) s =
      issueRun ws { s with len := v, resps := s.resps ++ [⟨.ok, .empty⟩, ⟨.ok, .empty⟩] } := by
  rw [← effect_seedLen]
  exact (issueRun_accepted (i := .seedLenLo (lenLo v)) enabled (fun _ => active) _).trans
    (issueRun_accepted (i := .seedLenHi (lenHi v)) (s := effect (.seedLenLo (lenLo v)) s) enabled (fun _ => active) _)

/-- Settles O16: after `issueRun_seedLen` the reads return the halves of the new `L`. -/
theorem seedLengthThenReadBack : Obligations.SeedLengthThenReadBack := by
  intro s v active enabled
  have run := (issueRun_seedLen active enabled v [encode .readLenLo, encode .readLenHi]).trans <|
    (issueRun_accepted (i := .readLenLo) rfl nofun _).trans <|
    (issueRun_accepted (i := .readLenHi) rfl nofun _).trans (issueRun_nil _)
  refine ⟨_, lenLo v, lenHi v, run, ⟨rfl, rfl, rfl, rfl, rfl, rfl⟩, ?_, lenLo_toNat v, lenHi_toNat v⟩
  rw [setHosts_resps, effect_resps, effect_resps, List.append_assoc, List.append_assoc]
  rfl

/-- A number of the operand's width is read as it is written, whatever line `f` it belongs to. -/
theorem map_readOnly_hexLiteral {w k : Nat} (digits : 2 ^ w = 16 ^ (k + 1)) (f : BitVec w → Line) (v : BitVec w) :
    (readOnly (2 ^ w) (hexLiteral (k + 1) v.toNat)).map (fun n => f (BitVec.ofNat w n)) = some (f v) := by
  rw [digits, readOnly_hexLiteral k v.toNat (digits ▸ v.isLt), Option.map_some, BitVec.ofNat_toNat, BitVec.setWidth_eq]

theorem readOperands_append {t : Text} {b : Byte} (read : readByte t = some (b, [])) :
    readOperands "APPEND".toList t = some (.cmd (.append b)) := by
  simp [readOperands, read, skipBlanks]

theorem readOperands_finalize {t : Text} {raw : Bool} (read : readForm t = some (raw, [])) :
    readOperands "FINALIZE".toList t = some (.cmd (.finalize raw)) := by
  simp [readOperands, read, skipBlanks]

theorem readOperands_hash {t rest : Text} {raw : Bool} {bs : List Byte} (form : readForm t = some (raw, rest))
    (bytes : readMoreBytes (rest.length + 1) rest = some bs) : readOperands "HASH".toList t = some (.hash raw bs) := by
  simp [readOperands, form, bytes]

/-- The mnemonic and the operands of a line, as they are written. -/
def lineParts : Line → Text × Text
  | .cmd .start => ("START".toList, [])
  | .cmd (.append b) => ("APPEND".toList, hexLiteral 2 b.toNat)
  | .cmd (.finalize raw) => ("FINALIZE".toList, writeForm raw)
  | .cmd (.seedLenLo v) => ("SEED_LEN_LO".toList, hexLiteral 8 v.toNat)
  | .cmd (.seedLenHi v) => ("SEED_LEN_HI".toList, hexLiteral 8 v.toNat)
  | .cmd .readStatus => ("READ_STATUS".toList, [])
  | .cmd .readLenLo => ("READ_LEN_LO".toList, [])
  | .cmd .readLenHi => ("READ_LEN_HI".toList, [])
  | .word w => (".word".toList, hexLiteral 16 w.toNat)
  | .appendBytes bs => ("APPEND_BYTES".toList, skipBlanks (writeBytes bs))
  | .seedLen v => ("SEED_LEN".toList, hexLiteral 16 v.toNat)
  | .hash raw bs => ("HASH".toList, writeForm raw ++ writeMoreBytes bs)

theorem readLine_writeLine (l : Line) : readLine (writeLine l) = readOperands (lineParts l).1 (lineParts l).2 := by
  cases l with
  | cmd i =>
    cases i with
    | finalize raw => cases raw <;> rfl
    | _ => rfl
  | appendBytes bs => cases bs <;> rfl
  | hash raw bs => cases raw <;> rfl
  | _ => rfl

theorem readOperands_lineParts (l : Line) : readOperands (lineParts l).1 (lineParts l).2 = some l := by
  cases l with
  | cmd i =>
    cases i with
    | append b =>
      have read := readByte_hexLiteral b [] nofun
      rw [List.append_nil] at read
      exact readOperands_append read
    | finalize raw =>
      have read := readForm_writeForm raw []
      rw [List.append_nil] at read
      exact readOperands_finalize read
    | seedLenLo v => exact map_readOnly_hexLiteral (k := 7) rfl (fun v => .cmd (.seedLenLo v)) v
    | seedLenHi v => exact map_readOnly_hexLiteral (k := 7) rfl (fun v => .cmd (.seedLenHi v)) v
    | _ => rfl
  | word w => exact map_readOnly_hexLiteral (k := 15) rfl .word w
  | appendBytes bs => exact congrArg (Option.map Line.appendBytes) (readBytes_writeBytes bs)
  | seedLen v => exact map_readOnly_hexLiteral (k := 15) rfl .seedLen v
  | hash raw bs =>
    have enough : bs.length ≤ (writeMoreBytes bs).length + 1 := (writeMoreBytes_length bs).trans (Nat.le_succ _)
    exact readOperands_hash (readForm_writeForm raw _) (readMoreBytes_writeMoreBytes bs _ enough)

/-- Settles O5: a line is read as its mnemonic and its operands, and each operand's reader undoes its writer. -/
theorem listingLinesReadBack : Obligations.ListingLinesReadBack :=
  fun l => (readLine_writeLine l).trans (readOperands_lineParts l)

end Sys2Proof.Machine
end

section
/-!
Proofs about the compression function (`40_compression.md`): the round functions bit by bit, the step parameters row by row,
one step in numbers, and the loop of steps. A step keeps `b`, `c` and `d` in `c`, `d` and `a`, and adds `a` to a value that
those three and the message words determine, so it can be undone.
-/

namespace Sys2Proof.Machine

/-! ### The round functions -/

theorem getLsbD_roundF (x y z : Word) {k : Nat} (hk : k < 32) :
    (roundF x y z).getLsbD k = if x.getLsbD k then y.getLsbD k else z.getLsbD k := by
  rw [roundF, BitVec.getLsbD_or, BitVec.getLsbD_and, BitVec.getLsbD_and, BitVec.getLsbD_not]
  cases x.getLsbD k <;> simp [hk]

theorem getLsbD_roundG (x y z : Word) {k : Nat} (hk : k < 32) :
    (roundG x y z).getLsbD k = if z.getLsbD k then x.getLsbD k else y.getLsbD k := by
  rw [roundG, BitVec.getLsbD_or, BitVec.getLsbD_and, BitVec.getLsbD_and, BitVec.getLsbD_not]
  cases z.getLsbD k <;> simp [hk]

theorem getLsbD_roundH (x y z : Word) (k : Nat) :
    (roundH x y z).getLsbD k = ((x.getLsbD k != y.getLsbD k) != z.getLsbD k) := by
  rw [roundH, BitVec.getLsbD_xor, BitVec.getLsbD_xor]

theorem getLsbD_roundI (x y z : Word) {k : Nat} (hk : k < 32) :
    (roundI x y z).getLsbD k = (y.getLsbD k != (x.getLsbD k || !z.getLsbD k)) := by
  simp only [roundI, BitVec.getLsbD_xor, BitVec.getLsbD_or, BitVec.getLsbD_not, hk, decide_true, Bool.true_and]

/-- Settles O21, one round function at a time; `F` and `G` by the bit that selects. -/
theorem roundFunctionsBitwise : Obligations.RoundFunctionsBitwise :=
  fun x y z k hk => ⟨getLsbD_roundF x y z hk, getLsbD_roundG x y z hk, getLsbD_roundH x y z k, getLsbD_roundI x y z hk⟩

/-! ### The step parameters -/

/-- The round of a step selects its function; 16 steps make a round. -/
theorem stepFn_eq_ite (i : Nat) :
    stepFn i = if i < 16 then roundF else if i < 32 then roundG else if i < 48 then roundH else roundI := by
  by_cases h16 : i < 16
  · have round : i / 16 = 0 := by omega
    simp [stepFn, round, h16]
  by_cases h32 : i < 32
  · have round : i / 16 = 1 := by omega
    simp [stepFn, round, h16, h32]
  by_cases h48 : i < 48
  · have round : i / 16 = 2 := by omega
    simp [stepFn, round, h16, h32, h48]
  · obtain ⟨r, round⟩ : ∃ r, i / 16 = r + 3 := ⟨i / 16 - 3, by omega⟩
    simp [stepFn, round, h16, h32, h48]

/-- Settles O22: the three tables row by row, and the function of a step by its round. -/
theorem stepParametersAreTheTable : Obligations.StepParametersAreTheTable := by
  refine ⟨by decide, by decide, by decide, fun i x y z _ => ?_⟩
  rw [stepFn_eq_ite]
  split_ifs <;> rfl

theorem roundShifts_lt (r : Nat) : ∀ s ∈ roundShifts r, s < 32 := by
  match r with
  | 0 | 1 | 2 | _ + 3 => simp [roundShifts]

theorem shiftAmount_lt (i : Nat) : shiftAmount i < 32 := by
  rw [shiftAmount, List.getD_eq_getElem?_getD]
  cases entry : (roundShifts (i / 16))[i % 4]? with
  | none => decide
  | some s => exact roundShifts_lt _ s (List.mem_of_getElem? entry)

/-! ### One step -/

section

variable (m : Fin 16 → Word) (q : Quad) (i : Nat)

@[simp] theorem compressStep_a : (compressStep m q i).a = q.d := rfl

@[simp] theorem compressStep_c : (compressStep m q i).c = q.b := rfl

@[simp] theorem compressStep_d : (compressStep m q i).d = q.c := rfl

theorem compressStep_b :
    (compressStep m q i).b = q.b + (stepSum m q i).rotateLeft (shiftAmount i) := by
  rw [compressStep, rotl32_eq_rotateLeft _ (shiftAmount_lt i)]

theorem toNat_stepSum :
    (stepSum m q i).toNat =
      (q.a.toNat + (stepFn i q.b q.c q.d).toNat + (stepConstant i).toNat + (m (msgIndex i)).toNat) % 2 ^ 32 := by
  simp only [stepSum, BitVec.toNat_add, Nat.mod_add_mod]

end

/-- A rotation loses no bit: the rotation to the right takes each back to its place. -/
theorem rotateRight_rotateLeft (x : Word) (s : Nat) : (x.rotateLeft s).rotateRight s = x := by
  ext k hk
  rw [BitVec.getElem_rotateRight]
  by_cases low : k < 32 - s % 32
  · rw [dif_pos low, BitVec.getElem_rotateLeft, dif_neg (by omega)]
    simp only [Nat.add_sub_cancel_left]
  · rw [dif_neg low, BitVec.getElem_rotateLeft, dif_pos (by omega)]
    simp only [Nat.add_sub_cancel' (Nat.le_of_not_lt low)]

theorem rotateLeft_injective (s : Nat) : Function.Injective fun x : Word => x.rotateLeft s :=
  Function.LeftInverse.injective (g := fun x => x.rotateRight s) fun x => rotateRight_rotateLeft x s

/-- A step can be undone: `b`, `c` and `d` are still there, and then `a` is the one unknown of the sum. -/
theorem compressStep_injective (m : Fin 16 → Word) (i : Nat) : Function.Injective fun q => compressStep m q i := by
  rintro ⟨a, b, c, d⟩ ⟨a', b', c', d'⟩ same
  have same_b := congrArg Quad.b same
  simp only [compressStep_b] at same_b
  obtain ⟨rfl, -, rfl, rfl⟩ := Quad.mk.inj same
  have sums : stepSum m ⟨a, b, c, d⟩ i = stepSum m ⟨a', b, c, d⟩ i :=
    rotateLeft_injective (shiftAmount i) ((BitVec.add_right_inj b).mp same_b)
  simp only [stepSum, BitVec.add_left_inj] at sums
  rw [sums]

/-! ### The loop -/

@[simp] theorem compressSteps_zero (m : Fin 16 → Word) (q : Quad) : compressSteps m q 0 = q := rfl

theorem compressSteps_succ (m : Fin 16 → Word) (q : Quad) (k : Nat) :
    compressSteps m q (k + 1) = compressStep m (compressSteps m q k) k := by
  rw [compressSteps, compressSteps, List.range_succ, List.foldl_concat]

/-- Settles O25, by induction on the number of steps: the last step is undone first. -/
theorem compressionStepsAreInjective : Obligations.CompressionStepsAreInjective := by
  intro m k q q' same
  induction k with
  | zero => exact same
  | succ k ih =>
    rw [compressSteps_succ, compressSteps_succ] at same
    exact ih (compressStep_injective m k same)

/-- Settles O24: the working states are those after `0`, `1`, ..., `64` steps. -/
theorem compressIsStepsThenFeedForward : Obligations.CompressIsStepsThenFeedForward := by
  intro h blk
  have unfolded : compress h blk = feedForward h (compressSteps (bufRead blk) (loadWorking h) 64) := by rw [compress]
  refine ⟨compressSteps (bufRead blk) (loadWorking h), compressSteps_zero .., fun i _ => ?_, ?_⟩
  · rw [compressSteps_succ]
    refine ⟨stepSum (bufRead blk) _ i, toNat_stepSum _ _ i, compressStep_a .., ?_, compressStep_c .., compressStep_d ..⟩
    rw [compressStep_b, BitVec.toNat_add]
  · rw [unfolded]
    exact ⟨BitVec.toNat_add .., BitVec.toNat_add .., BitVec.toNat_add .., BitVec.toNat_add ..⟩

end Sys2Proof.Machine
end

section
/-!
Proofs about absorbing bytes (`41_absorb.md`). What `APPEND` writes is one equation per register; `Absorbed m` says what a
session has made of the bytes `m` (rule R104), and one more `APPEND` keeps it for one more byte (`absorbed_append`); and a
command depends on no more of the state than the six registers, so reads between the bytes do not matter (rule R103).
-/

namespace Sys2Proof.Machine

/-- A run takes its first command as `exec` performs it, whatever comes of it. -/
theorem issueRun_exec {i : Instr} {s t : State} (performed : exec i s = .next t) (ws : List Cmd) :
    issueRun (encode i :: ws) s = issueRun ws t := by
  rw [issueRun_encode (decode_encode i) (exec_setHosts [ws] performed), issueRun_setHosts]

/-! ### `APPEND` (rules R100 to R102) -/

theorem append_acc (b : Byte) (s : State) :
    (effect (.append b) s).acc = if s.n.toNat + 1 = 64 then compress s.acc (bufSet s.buf s.n b) else s.acc :=
  absorb_acc b s

theorem append_len (b : Byte) (s : State) :
    (effect (.append b) s).len = if s.n.toNat + 1 = 64 then s.len + 64 else s.len := by
  show (absorb b s).len = _
  split
  · next full => rw [absorb_drain full]; rfl
  · next room => rw [absorb_fill room]; rfl

/-- The three registers that a drain writes, or `n` alone. -/
theorem append_counts (b : Byte) (s : State) :
    if s.n.toNat + 1 = 64 then
      (effect (.append b) s).n.toNat = 0 ∧ (effect (.append b) s).acc = compress s.acc (effect (.append b) s).buf ∧
        (effect (.append b) s).len.toNat = (s.len.toNat + 64) % 2 ^ 64
    else
      (effect (.append b) s).n.toNat = s.n.toNat + 1 ∧ (effect (.append b) s).acc = s.acc ∧
        (effect (.append b) s).len = s.len := by
  rw [append_n_toNat, append_acc, append_len, append_buf]
  split
  · next full => exact ⟨by rw [full], rfl, BitVec.toNat_add s.len 64⟩
  · next room => exact ⟨by omega, rfl, rfl⟩

/-- Of the words with the opcode of `APPEND`, those without a bit above the byte are its encodings; any other bit is in
`RSV` or in `ARG[31:8]`. -/
theorem append_word (cfg : Config) {w : Cmd} (op : w.toNat / 2 ^ 56 = 0x02) :
    if w.toNat % 2 ^ 56 < 256 then decode w = .ok (.append (BitVec.ofNat 8 w.toNat)) else illegal cfg w = true := by
  split
  · next byte =>
    refine decode_of_fields op (by omega) ?_
    rw [argument, argOfByte_toNat, BitVec.toNat_ofNat]
    omega
  · next above =>
    have bits : w.toNat / 2 ^ 32 % 2 ^ 24 ≠ 0 ∨ w.toNat % 2 ^ 32 / 2 ^ 8 ≠ 0 := by omega
    refine illegal_of_illegalFields ?_
    rcases bits with rsv | arg
    · exact .inr (.inr (.inl rsv))
    · exact .inr (.inr (.inr (.inr (.inl ⟨op, arg⟩))))

/-- Settles O17: in `ACTIVE` the effect is `absorb`, the other two phases turn the command away, and `append_word`. -/
theorem appendAbsorbsOneByte : Obligations.AppendAbsorbsOneByte := by
  refine ⟨fun s b active => ?_, fun s b => ⟨fun done => ?_, fun fault => ?_⟩, fun cfg w => append_word cfg⟩
  · obtain ⟨phase, fcode, cfg, hosts, _⟩ := absorb_keeps b s
    refine ⟨effect (.append b) s, exec_accepted rfl fun _ => active, fun i => ?_, append_counts b s,
      phase.trans active, fcode, cfg, hosts, effect_resps (.append b) s⟩
    rw [append_buf, bufSet_get]
  · rw [exec_done rfl rfl done, raise_eq, done]; rfl
  · exact exec_fault rfl rfl fault

/-! ### The complete blocks of a byte string -/

/-- Bytes after a block do not change it. -/
theorem blockAt_append (l r : List Byte) {k : Nat} (complete : 64 * (k + 1) ≤ l.length) :
    blockAt (l ++ r) k = blockAt l k := by
  refine block_ext fun i => ?_
  have inside : 64 * k + i.val < l.length := by omega
  simp only [blockAt, Fin.getElem_fin, Vector.getElem_ofFn]
  exact List.getD_append _ _ _ _ inside

/-- The blocks of `l` are the first blocks of any continuation of `l`. -/
theorem blocks_of_continuation (l r : List Byte) : (List.range (l.length / 64)).map (blockAt (l ++ r)) = blocks l := by
  refine List.map_congr_left fun k mem => blockAt_append l r ?_
  have below := List.mem_range.1 mem
  omega

theorem digestOfBlocks_of_room {m : List Byte} (b : Byte) (room : ¬ m.length % 64 + 1 = 64) :
    digestOfBlocks (m ++ [b]) = digestOfBlocks m := by
  have count : (m ++ [b]).length / 64 = m.length / 64 := by rw [List.length_append, List.length_singleton]; omega
  rw [digestOfBlocks, blocks, count, blocks_of_continuation, digestOfBlocks]

/-- The byte that completes a block adds one compression, of that block. -/
theorem digestOfBlocks_of_full {m : List Byte} (b : Byte) (full : m.length % 64 + 1 = 64) :
    digestOfBlocks (m ++ [b]) = compress (digestOfBlocks m) (blockAt (m ++ [b]) (m.length / 64)) := by
  have count : (m ++ [b]).length / 64 = m.length / 64 + 1 := by rw [List.length_append, List.length_singleton]; omega
  rw [digestOfBlocks, blocks, count, List.range_succ, List.map_append, blocks_of_continuation, List.map_singleton,
    List.foldl_concat, digestOfBlocks]

/-! ### The state after absorbing a message (rule R104) -/

/-- The registers of an open session without a fault that has absorbed the bytes `m` since `START`, with no seeding. -/
structure Absorbed (m : List Byte) (s : State) : Prop where
  n : s.n.toNat = m.length % 64
  len : s.len = BitVec.ofNat 64 (64 * (m.length / 64))
  acc : s.acc = digestOfBlocks m
  buf : ∀ i : Fin 64, i.val < m.length % 64 → m[64 * (m.length / 64) + i.val]? = some s.buf[i]
  phase : s.phase = .active
  fcode : s.fcode = .none

theorem absorbed_start (s : State) : Absorbed [] (effect .start s) :=
  ⟨rfl, rfl, rfl, fun _ below => absurd below (Nat.not_lt_zero _), rfl, rfl⟩

/-- With the new byte at `buf[n]` the buffer holds the bytes of the message up to and including it. -/
theorem Absorbed.bufSet_holds {m : List Byte} {s : State} (h : Absorbed m s) (b : Byte) {i : Fin 64}
    (upTo : i.val ≤ m.length % 64) :
    (m ++ [b])[64 * (m.length / 64) + i.val]? = some (bufSet s.buf s.n b)[i] := by
  rw [bufSet_get, h.n]
  split
  · next new =>
    have last : 64 * (m.length / 64) + i.val = m.length := by omega
    rw [last, List.getElem?_concat_length]
  · next old =>
    rw [List.getElem?_append_left (by omega)]
    exact h.buf i (by omega)

/-- When the byte is the block's last, the buffer is the message's new block. -/
theorem Absorbed.blockAt_eq {m : List Byte} {s : State} (h : Absorbed m s) (b : Byte) (full : m.length % 64 + 1 = 64) :
    blockAt (m ++ [b]) (m.length / 64) = bufSet s.buf s.n b := by
  refine block_ext fun i => ?_
  have held := h.bufSet_holds b (i := i) (by omega)
  simp only [blockAt, Fin.getElem_fin, Vector.getElem_ofFn, List.getD_eq_getElem?_getD] at held ⊢
  rw [held, Option.getD_some]

/-- One `APPEND`: short of a full block `n` alone counts it, and the byte that fills the block has it compressed. -/
theorem absorbed_append {m : List Byte} {s : State} (h : Absorbed m s) (b : Byte) :
    Absorbed (m ++ [b]) (effect (.append b) s) := by
  have length : (m ++ [b]).length = m.length + 1 := by rw [List.length_append, List.length_singleton]
  obtain ⟨phase, fcode⟩ := effect_phase (.append b) s
  constructor
  case n => rw [append_n_toNat, h.n, length]; omega
  case len =>
    rw [append_len, h.n, h.len, length]
    split
    · next full =>
      have blocks : 64 * ((m.length + 1) / 64) = 64 * (m.length / 64) + 64 := by omega
      rw [blocks, BitVec.ofNat_add]; rfl
    · next room =>
      have blocks : (m.length + 1) / 64 = m.length / 64 := by omega
      rw [blocks]
  case acc =>
    rw [append_acc, h.n, h.acc]
    split
    · next full => rw [digestOfBlocks_of_full b full, h.blockAt_eq b full]
    · next room => rw [digestOfBlocks_of_room b room]
  case buf =>
    intro i below
    rw [length] at below ⊢
    have sameBlock : (m.length + 1) / 64 = m.length / 64 := by omega
    rw [sameBlock, append_buf]
    exact h.bufSet_holds b (by omega)
  case phase => exact phase.trans h.phase
  case fcode => exact fcode.trans h.fcode

/-- `APPEND_BYTES` in a session that has absorbed `m`, and whatever is issued after it. -/
theorem Absorbed.issueRun_appendBytes {m : List Byte} {s : State} (h : Absorbed m s) (bs : List Byte) :
    ∃ t, Absorbed (m ++ bs) t ∧ ∀ ws, issueRun ((appendBytes bs).map encode ++ ws) s = issueRun ws t := by
  induction bs generalizing m s with
  | nil => exact ⟨s, by rwa [List.append_nil], fun _ => rfl⟩
  | cons b bs ih =>
    obtain ⟨t, absorbed, rest⟩ := ih (absorbed_append h b)
    rw [List.append_assoc] at absorbed
    refine ⟨t, absorbed, fun ws => ?_⟩
    exact (issueRun_accepted (i := .append b) rfl (fun _ => h.phase) _).trans (rest ws)

/-- Settles O18: `START` opens a session that has absorbed nothing, and `APPEND_BYTES` adds the bytes of `m`. -/
theorem absorbedMessageState : Obligations.AbsorbedMessageState := by
  intro s m
  obtain ⟨t, h, rest⟩ := (absorbed_start s).issueRun_appendBytes m
  have run : issueRun (assemble [.cmd .start, .appendBytes m]) s = .next (setHosts [[]] t) :=
    (issueRun_accepted (i := .start) rfl nofun _).trans <| (rest []).trans (issueRun_nil t)
  obtain ⟨u, completed, _, cfg⟩ := issueRun_next (assemble [.cmd .start, .appendBytes m]) s
  cases run.symm.trans completed
  exact ⟨_, run, h.n, h.len, h.acc, h.buf, h.phase, h.fcode, cfg⟩

/-! ### Splitting a message, and reads between its bytes (rule R103) -/

theorem raise_sameRegisters (c : FaultCode) {s t : State} (same : SameRegisters s t) :
    SameRegisters (raise c s) (raise c t) := by
  obtain ⟨acc, buf, n, len, phase, fcode⟩ := same
  rw [raise_eq, raise_eq, phase, fcode]
  exact ⟨acc, buf, n, len, rfl, rfl⟩

theorem append_sameRegisters (b : Byte) {s t : State} (same : SameRegisters s t) :
    SameRegisters (effect (.append b) s) (effect (.append b) t) := by
  obtain ⟨acc, buf, n, len, phase, fcode⟩ := same
  obtain ⟨phase_s, fcode_s⟩ := effect_phase (.append b) s
  obtain ⟨phase_t, fcode_t⟩ := effect_phase (.append b) t
  refine ⟨?_, ?_, BitVec.eq_of_toNat_eq ?_, ?_, ?_, ?_⟩
  · rw [append_acc, append_acc, acc, buf, n]
  · rw [append_buf, append_buf, buf, n]
  · rw [append_n_toNat, append_n_toNat, n]
  · rw [append_len, append_len, len, n]
  · rw [phase_t, phase_s]; exact phase
  · rw [fcode_t, fcode_s]; exact fcode

/-- `APPEND` in each phase: what it does to the registers comes from the registers. -/
theorem exec_append_sameRegisters (b : Byte) {s t : State} (same : SameRegisters s t) :
    ∃ s' t', exec (.append b) s = .next s' ∧ exec (.append b) t = .next t' ∧ SameRegisters s' t' := by
  have ⟨_, _, _, _, phase, _⟩ := same
  cases hp : s.phase with
  | active =>
    exact ⟨_, _, exec_accepted rfl fun _ => hp, exec_accepted rfl fun _ => phase.trans hp, append_sameRegisters b same⟩
  | done => exact ⟨_, _, exec_done rfl rfl hp, exec_done rfl rfl (phase.trans hp), raise_sameRegisters _ same⟩
  | fault => exact ⟨_, _, exec_fault rfl rfl hp, exec_fault rfl rfl (phase.trans hp), same⟩

theorem eq_append_of_isAppend {i : Instr} (h : isAppend i = true) : ∃ b, i = .append b := by
  cases i with
  | append b => exact ⟨b, rfl⟩
  | _ => cases h

/-- Two cores with the same registers, of which the second is issued the `APPEND`s alone. -/
theorem issueRun_filter_isAppend {is : List Instr} (kinds : ∀ i ∈ is, isAppend i = true ∨ isRead i = true) {s u : State}
    (same : SameRegisters s u) :
    ∃ t v, issueRun (is.map encode) s = .next t ∧ issueRun ((is.filter isAppend).map encode) u = .next v ∧
      SameRegisters t v := by
  induction is generalizing s u with
  | nil => exact ⟨_, _, issueRun_nil s, issueRun_nil u, same⟩
  | cons i is ih =>
    obtain ⟨kind, rest⟩ := List.forall_mem_cons.1 kinds
    rw [List.map_cons]
    cases append : isAppend i with
    | true =>
      obtain ⟨b, rfl⟩ := eq_append_of_isAppend append
      obtain ⟨s', u', first, first', same'⟩ := exec_append_sameRegisters b same
      rw [List.filter_cons_of_pos append, List.map_cons, issueRun_exec first, issueRun_exec first']
      exact ih rest same'
    | false =>
      have read : isRead i = true := kind.resolve_left (by rw [append]; nofun)
      obtain ⟨v, answer⟩ := exec_read read s
      rw [List.filter_cons_of_neg (by rw [append]; nofun), issueRun_exec (answer s.resps)]
      exact ih rest same

/-- Settles O19: `issueRun_filter_isAppend` for two cores in one and the same state. -/
theorem splittingAndReadsDoNotMatter : Obligations.SplittingAndReadsDoNotMatter :=
  fun _ _ kinds => issueRun_filter_isAppend kinds ⟨rfl, rfl, rfl, rfl, rfl, rfl⟩

end Sys2Proof.Machine
end

section
/-!
Proofs about finalization (`42_finalize.md`). The block that `FINALIZE` compresses last is given byte by byte
(`closeMessage_buf_get`), and so is the padded message of rule R131 (`padded_getElem?_…`); for a session that has absorbed
`m` the two agree, so `closeMessage` leaves the digest of `m` (`Absorbed.closeMessage_acc_eq_md5`). The hexadecimal digest is
a concatenation of pieces of one length each, from which its characters and its injectivity follow.
-/

namespace Sys2Proof.Machine

/-! ### The registers after the close of a message (rules R120 to R125) -/

theorem closeMessage_len_toNat (s : State) : (closeMessage s).len.toNat = (s.len.toNat + s.n.toNat) % 2 ^ 64 := by
  obtain ⟨_, _, _, _, _, _, len⟩ := closeMessage_keeps s
  rw [len]
  exact recordLength_toNat s

/-- The last block: the bit-length in the last eight bytes, and before it the padded tail of the message, or zeros where the
tail has gone into a block of its own. -/
theorem closeMessage_buf_get (s : State) (i : Fin 64) :
    (closeMessage s).buf[i] =
      if 56 ≤ i.val then BitVec.ofNat 8 (8 * (closeMessage s).len.toNat / 256 ^ (i.val - 56))
      else if 55 < s.n.toNat then 0x00
      else (bufPad s.buf s.n)[i] := by
  rw [closeMessage_len_toNat, ← recordLength_toNat, closeMessage_buf, encodeLength_buf, lengthImage_get, setBuf_len,
    setBuf_buf]
  by_cases last : 56 ≤ i.val
  · rw [if_neg (by omega), if_pos last]
  · rw [if_pos (by omega), if_neg last]
    split
    · exact zeroBlock_get i
    · rfl

theorem effect_finalize_eq (raw : Bool) (s : State) :
    effect (.finalize raw) s =
      { closeMessage s with resps := s.resps ++ [⟨.ok, digestData raw (closeMessage s).acc⟩] } := by
  obtain ⟨_, _, _, _, _, resps, _⟩ := closeMessage_keeps s
  rw [← resps]; rfl

/-- In an open session `FINALIZE` closes the message and answers its digest. -/
theorem exec_finalize_of_active {s : State} (raw : Bool) (active : s.phase = .active) :
    exec (.finalize raw) s =
      .next { closeMessage s with resps := s.resps ++ [⟨.ok, digestData raw (closeMessage s).acc⟩] } := by
  rw [exec_accepted rfl fun _ => active, effect_finalize_eq]

/-- Of the words with the opcode of `FINALIZE`, its two encodings are legal; any other has a bit in `RSV` or in
`ARG[31:1]`. -/
theorem finalize_word (cfg : Config) {w : Cmd} (op : w.toNat / 2 ^ 56 = 0x03) :
    if w.toNat = 0x0300000000000000 then decode w = .ok (.finalize false)
    else if w.toNat = 0x0300000000000001 then decode w = .ok (.finalize true)
    else illegal cfg w = true := by
  split_ifs with hex raw
  · exact decode_of_fields op (by omega) (by rw [hex]; rfl)
  · exact decode_of_fields op (by omega) (by rw [raw]; rfl)
  · have bits : w.toNat / 2 ^ 32 % 2 ^ 24 ≠ 0 ∨ w.toNat % 2 ^ 32 / 2 ≠ 0 := by omega
    refine illegal_of_illegalFields ?_
    rcases bits with rsv | arg
    · exact .inr (.inr (.inl rsv))
    · exact .inr (.inr (.inr (.inr (.inr (.inl ⟨op, arg⟩)))))

/-- Settles O27: in `ACTIVE` the effect is `closeMessage` with `bufPad` and its own buffer as the two blocks, the other two
phases turn the command away, and `finalize_word`. -/
theorem finalizeClosesMessage : Obligations.FinalizeClosesMessage := by
  refine ⟨fun s raw active => ?_, fun s raw => ⟨fun done => ?_, fun fault => ?_⟩, fun cfg w => finalize_word cfg⟩
  · obtain ⟨n, phase, fcode, cfg, hosts, _, _⟩ := closeMessage_keeps s
    exact ⟨_, bufPad s.buf s.n, (closeMessage s).buf, exec_finalize_of_active raw active, closeMessage_len_toNat s,
      bufPad_get s.buf s.n, closeMessage_buf_get s, closeMessage_acc s, rfl, n, phase, fcode, cfg, hosts, rfl⟩
  · rw [exec_done rfl rfl done, raise_eq, done]; rfl
  · exact exec_fault rfl rfl fault

/-! ### Raw and hexadecimal (rule R129), and the end of the session (rule R128) -/

/-- Settles O31: the form is only in the answer. -/
theorem rawAndHexDigestsAgree : Obligations.RawAndHexDigestsAgree :=
  fun s active => ⟨closeMessage s, exec_finalize_of_active true active, exec_finalize_of_active false active⟩

/-- Settles O34: in `DONE` a command that needs a session is turned away, and any other is accepted. -/
theorem doneRefusesSessionCommands : Obligations.DoneRefusesSessionCommands := by
  refine ⟨fun s raw active => ⟨_, exec_finalize_of_active raw active, ?_⟩, fun s i done wf => ?_⟩
  · obtain ⟨_, phase, _⟩ := closeMessage_keeps s
    exact phase
  split
  · next needs => rw [exec_done wf needs done, raise_eq, done]; rfl
  · next free => exact ⟨_, _, exec_accepted wf fun needs => absurd needs free, effect_resps i s, rfl⟩

/-! ### The padded message (rule R131) -/

theorem padded_getElem?_message {m : List Byte} {j : Nat} (inside : j < m.length) : (padded m)[j]? = m[j]? :=
  List.getElem?_append_left inside

theorem padded_getElem?_mark (m : List Byte) : (padded m)[m.length]? = some 0x80 := by
  rw [padded, List.getElem?_append_right le_rfl, Nat.sub_self, List.getElem?_cons_zero]

/-- The bytes after the mark. -/
theorem padded_getElem?_after (m : List Byte) (j : Nat) :
    (padded m)[m.length + 1 + j]? = (List.replicate (zeroFill m.length) 0x00 ++ lengthField m.length)[j]? := by
  rw [padded, List.getElem?_append_right (by omega), show m.length + 1 + j - m.length = j + 1 by omega,
    List.getElem?_cons_succ]

theorem padded_getElem?_fill {m : List Byte} {j : Nat} (after : m.length < j)
    (before : j < m.length + 1 + zeroFill m.length) : (padded m)[j]? = some 0x00 := by
  obtain ⟨k, rfl⟩ := Nat.exists_eq_add_of_le (Nat.succ_le_of_lt after)
  have inFill : k < zeroFill m.length := by omega
  rw [padded_getElem?_after, List.getElem?_append_left (by rwa [List.length_replicate]),
    List.getElem?_replicate_of_lt inFill]

theorem padded_getElem?_length (m : List Byte) {k : Nat} (hk : k < 8) :
    (padded m)[m.length + 1 + zeroFill m.length + k]? = some (BitVec.ofNat 8 (8 * m.length / 256 ^ k)) := by
  rw [Nat.add_assoc _ (zeroFill m.length), padded_getElem?_after,
    List.getElem?_append_right (by rw [List.length_replicate]; omega), List.length_replicate, Nat.add_sub_cancel_left,
    lengthField, List.getElem?_map, List.getElem?_range hk, Option.map_some]

/-- The length field ends the block of the tail, or the one after it where the tail leaves no room. -/
theorem lengthField_start (m : List Byte) :
    m.length + 1 + zeroFill m.length = 64 * (m.length / 64) + if 55 < m.length % 64 then 120 else 56 := by
  rw [zeroFill]
  split <;> omega

theorem padded_length (m : List Byte) :
    (padded m).length = 64 * (m.length / 64 + if 55 < m.length % 64 then 2 else 1) := by
  have start := lengthField_start m
  have total : (padded m).length = m.length + 1 + zeroFill m.length + 8 := by
    simp only [padded, lengthField, List.length_append, List.length_cons, List.length_replicate, List.length_map,
      List.length_range]
    omega
  rw [total, start]
  split <;> omega

/-! ### The blocks after the complete blocks of a message -/

theorem blockAt_eq_of_getElem? {l : List Byte} {k : Nat} {blk : Block}
    (bytes : ∀ i : Fin 64, l[64 * k + i.val]? = some blk[i]) : blockAt l k = blk := by
  refine block_ext fun i => ?_
  simp only [blockAt, Fin.getElem_fin, Vector.getElem_ofFn, List.getD_eq_getElem?_getD]
  exact congrArg (Option.getD · 0) (bytes i)

/-- Where bytes after `m` complete `d` more blocks, these are compressed after the blocks of `m`. -/
theorem digestOfBlocks_append {m r : List Byte} {d : Nat} (count : (m ++ r).length / 64 = m.length / 64 + d) :
    digestOfBlocks (m ++ r) =
      ((List.range d).map fun k => blockAt (m ++ r) (m.length / 64 + k)).foldl compress (digestOfBlocks m) := by
  rw [digestOfBlocks, blocks, count, List.range_add, List.map_append, blocks_of_continuation, List.map_map,
    List.foldl_append]
  rfl

/-- The digest of a message goes on from its complete blocks with the one or two blocks of its tail. -/
theorem md5_eq (m : List Byte) :
    md5 m =
      if 55 < m.length % 64 then
        compress (compress (digestOfBlocks m) (blockAt (padded m) (m.length / 64)))
          (blockAt (padded m) (m.length / 64 + 1))
      else compress (digestOfBlocks m) (blockAt (padded m) (m.length / 64)) := by
  have count : (padded m).length / 64 = m.length / 64 + if 55 < m.length % 64 then 2 else 1 := by
    rw [padded_length, Nat.mul_div_cancel_left _ (by decide)]
  rw [md5, padded, digestOfBlocks_append count]
  split <;> rfl

/-! ### `FINALIZE` on an absorbed message -/

/-- The counter of rule R26 holds the length modulo 2^64, which is enough for the eight bytes of the length field. -/
theorem lengthByte_mod (l : Nat) {k : Nat} (hk : k < 8) :
    BitVec.ofNat 8 (8 * (l % 2 ^ 64) / 256 ^ k) = BitVec.ofNat 8 (8 * l / 256 ^ k) := by
  apply BitVec.eq_of_toNat_eq
  rw [BitVec.toNat_ofNat, BitVec.toNat_ofNat]
  interval_cases k <;> omega

section

variable {m : List Byte} {s : State}

theorem Absorbed.closeMessage_len (h : Absorbed m s) : (closeMessage s).len = BitVec.ofNat 64 m.length := by
  apply BitVec.eq_of_toNat_eq
  rw [closeMessage_len_toNat, h.len, h.n, BitVec.toNat_ofNat, BitVec.toNat_ofNat]
  omega

/-- Up to the length field the padded buffer holds the tail of the padded message. -/
theorem Absorbed.padded_tail (h : Absorbed m s) {i : Fin 64}
    (before : 64 * (m.length / 64) + i.val < m.length + 1 + zeroFill m.length) :
    (padded m)[64 * (m.length / 64) + i.val]? = some (bufPad s.buf s.n)[i] := by
  rw [bufPad_get, h.n]
  split_ifs with tail mark
  · rw [padded_getElem?_message (by omega)]
    exact h.buf i tail
  · rw [mark, Nat.div_add_mod, padded_getElem?_mark]
  · exact padded_getElem?_fill (by omega) before

theorem Absorbed.blockAt_tail (h : Absorbed m s) (extra : 55 < m.length % 64) :
    blockAt (padded m) (m.length / 64) = bufPad s.buf s.n := by
  refine blockAt_eq_of_getElem? fun i => h.padded_tail ?_
  rw [lengthField_start, if_pos extra]
  omega

/-- The block that the length field ends is the one that `FINALIZE` compresses last. -/
theorem Absorbed.blockAt_last (h : Absorbed m s) {k : Nat} (ends : 64 * k + 56 = m.length + 1 + zeroFill m.length) :
    blockAt (padded m) k = (closeMessage s).buf := by
  have start := lengthField_start m
  refine blockAt_eq_of_getElem? fun i => ?_
  rw [closeMessage_buf_get, h.closeMessage_len, BitVec.toNat_ofNat, h.n]
  split_ifs with length extra
  · rw [lengthByte_mod _ (by omega), ← padded_getElem?_length m (by omega), ← ends]
    congr 1
    omega
  · rw [if_pos extra] at start
    exact padded_getElem?_fill (by omega) (by omega)
  · rw [if_neg extra] at start
    obtain rfl : k = m.length / 64 := by omega
    exact h.padded_tail (by omega)

theorem Absorbed.closeMessage_acc_eq_md5 (h : Absorbed m s) : (closeMessage s).acc = md5 m := by
  have start := lengthField_start m
  rw [closeMessage_acc, h.n, h.acc, md5_eq]
  split_ifs at start ⊢ with extra
  · rw [h.blockAt_tail extra, h.blockAt_last (k := m.length / 64 + 1) (by omega)]
  · rw [h.blockAt_last (by omega)]

/-- `FINALIZE` answers the digest of what the session has absorbed (rule R131). -/
theorem Absorbed.effect_finalize_resps (h : Absorbed m s) (raw : Bool) :
    (effect (.finalize raw) s).resps = s.resps ++ [⟨.ok, digestData raw (md5 m)⟩] := by
  rw [effect_finalize_eq, h.closeMessage_acc_eq_md5]

end

/-! ### `HASH` (rules R70, R131) -/

/-- Each byte absorbed is answered `OK`, without data. -/
theorem resps_of_issueRun_appendBytes {s t : State} (active : s.phase = .active) (bs : List Byte)
    (run : issueRun ((appendBytes bs).map encode) s = .next t) :
    t.resps = s.resps ++ List.replicate bs.length ⟨.ok, .empty⟩ := by
  induction bs generalizing s with
  | nil =>
    cases (issueRun_nil s).symm.trans run
    exact (List.append_nil _).symm
  | cons b bs ih =>
    have first := issueRun_accepted (i := .append b) rfl (fun _ => active) ((appendBytes bs).map encode)
    have stillActive : (effect (.append b) s).phase = .active := (effect_phase (.append b) s).1.trans active
    rw [ih stillActive (first.symm.trans run), effect_resps, List.append_assoc]
    rfl

/-- `START` and the bytes of a message: the session has absorbed it, and every command is answered `OK`. -/
theorem issueRun_start_appendBytes (s : State) (m : List Byte) :
    ∃ t, Absorbed m t ∧ t.resps = s.resps ++ List.replicate (m.length + 1) ⟨.ok, .empty⟩ ∧
      ∀ ws, issueRun (encode .start :: ((appendBytes m).map encode ++ ws)) s = issueRun ws t := by
  obtain ⟨t, absorbed, rest⟩ := (absorbed_start s).issueRun_appendBytes m
  have alone : issueRun ((appendBytes m).map encode) (effect .start s) = .next (setHosts [[]] t) := by
    rw [← issueRun_nil, ← rest, List.append_nil]
  refine ⟨t, absorbed, ?_, fun ws => (issueRun_accepted (i := .start) rfl nofun _).trans (rest ws)⟩
  rw [← setHosts_resps [[]] t, resps_of_issueRun_appendBytes rfl m alone, effect_resps, List.append_assoc]
  rfl

theorem assemble_hash (raw : Bool) (m : List Byte) :
    assemble [.hash raw m] = encode .start :: ((appendBytes m).map encode ++ [encode (.finalize raw)]) := by
  rw [assemble, List.flatMap_singleton, lineWords, hashCommands, List.map_cons, List.map_append, List.map_singleton]

/-- Settles O32: `START` and the bytes leave a session that has absorbed the message, which `FINALIZE` closes with the
digest of the padded message. -/
theorem hashReturnsDigestOfPaddedMessage : Obligations.HashReturnsDigestOfPaddedMessage := by
  intro s m raw
  obtain ⟨t, h, resps, rest⟩ := issueRun_start_appendBytes s m
  obtain ⟨n, phase, _⟩ := closeMessage_keeps t
  refine ⟨setHosts [[]] (effect (.finalize raw) t), ?_, h.closeMessage_acc_eq_md5, phase, h.closeMessage_len,
    (congrArg BitVec.toNat n).trans h.n, ?_⟩
  · rw [assemble_hash, rest, issueRun_accepted (i := .finalize raw) rfl (fun _ => h.phase), issueRun_nil]
  · rw [setHosts_resps, h.effect_finalize_resps, resps]
    rfl

/-! ### The empty message (vector V1) -/

theorem absorbed_reset : Absorbed [] State.reset :=
  ⟨rfl, rfl, rfl, fun _ below => absurd below (Nat.not_lt_zero _), rfl, rfl⟩

theorem accWords_md5_nil : accWords (md5 []) = [0xD98C1DD4, 0x04B2008F, 0x980980E9, 0x7E42F8EC] := by
  decide +kernel

/-- Settles O33: after reset nothing has been absorbed, so `FINALIZE` answers the digest of the empty message. -/
theorem emptyMessageDigestAfterReset : Obligations.EmptyMessageDigestAfterReset := by
  refine ⟨effect (.finalize true) State.reset, ?_, ?_⟩
  · exact (step_of_command (later := []) rfl).trans (perform_ok (i := .finalize true) rfl _)
  · rw [absorbed_reset.effect_finalize_resps, digestData, if_pos rfl, accWords_md5_nil]
    rfl

/-! ### The hexadecimal digest (rules R44, R127) -/

theorem hexDigit_eq_ofNat (v : BitVec 4) :
    hexDigit v = BitVec.ofNat 8 (if v.toNat < 10 then 0x30 + v.toNat else 0x61 + v.toNat - 10) := by
  revert v
  decide

theorem hexDigit_injective : Function.Injective hexDigit := by
  unfold Function.Injective
  decide

theorem highNibble_toNat (b : Byte) : (b.extractLsb' 4 4).toNat = b.toNat / 16 := by
  rw [toNat_extract_eq]
  omega

theorem lowNibble_toNat (b : Byte) : (b.extractLsb' 0 4).toNat = b.toNat % 16 := by
  rw [toNat_extract_eq]
  omega

/-- The characters of byte `k` of a byte string stand at `2k` and `2k+1`. -/
theorem getElem?_flatMap_hexByte (bs : List Byte) (k : Nat) :
    (bs.flatMap hexByte)[2 * k]? = bs[k]?.map (fun b => hexDigit (b.extractLsb' 4 4)) ∧
    (bs.flatMap hexByte)[2 * k + 1]? = bs[k]?.map (fun b => hexDigit (b.extractLsb' 0 4)) := by
  induction bs generalizing k with
  | nil => exact ⟨rfl, rfl⟩
  | cons b bs ih =>
    cases k with
    | zero => exact ⟨rfl, rfl⟩
    | succ k => exact ih k

/-- Settles O29: byte `k` of the digest is `wordByte` of its word, and its two characters are its nibbles' digits. -/
theorem hexDigestCharacters : Obligations.HexDigestCharacters := by
  refine fun h => ⟨rfl, fun k v digit word digits => ?_⟩
  have byte : (digestBytes h)[k.val]? = some (wordByte v (k.val % 4)) := by
    rw [digestBytes_eq_ofFn, List.getElem?_ofFn, dif_pos k.isLt, ← word]
  obtain ⟨high, low⟩ := getElem?_flatMap_hexByte (digestBytes h) k.val
  rw [hexBytes, high, low, byte, Option.map_some, Option.map_some, hexDigit_eq_ofNat, hexDigit_eq_ofNat, digits, digits,
    highNibble_toNat, lowNibble_toNat, wordByte_toNat]
  exact ⟨rfl, rfl⟩

/-- A concatenation of images of one length, none empty, is cut back into them. -/
theorem flatMap_injective {α β : Type} {f : α → List β} (k : Nat) (length : ∀ a, (f a).length = k + 1)
    (inj : Function.Injective f) : Function.Injective (List.flatMap f) := by
  have nonempty : ∀ a, f a ≠ [] := fun a empty => by simpa [empty] using length a
  intro l l' same
  induction l generalizing l' with
  | nil =>
    cases l' with
    | nil => rfl
    | cons a' l' => exact absurd (List.append_eq_nil_iff.1 same.symm).1 (nonempty a')
  | cons a l ih =>
    cases l' with
    | nil => exact absurd (List.append_eq_nil_iff.1 same).1 (nonempty a)
    | cons a' l' =>
      obtain ⟨head, tail⟩ := List.append_inj same ((length a).trans (length a').symm)
      rw [inj head, ih tail]

theorem hexByte_injective : Function.Injective hexByte := by
  intro b b' same
  simp only [hexByte, List.cons.injEq, and_true] at same
  have high := congrArg BitVec.toNat (hexDigit_injective same.1)
  have low := congrArg BitVec.toNat (hexDigit_injective same.2)
  rw [highNibble_toNat, highNibble_toNat] at high
  rw [lowNibble_toNat, lowNibble_toNat] at low
  exact BitVec.eq_of_toNat_eq (by omega)

/-- The four bytes are the digits of the word to the base 256. -/
theorem wordBytes_injective : Function.Injective wordBytes := by
  intro v v' same
  have digit : ∀ {k}, wordByte v k = wordByte v' k → v.toNat / 2 ^ (8 * k) % 256 = v'.toNat / 2 ^ (8 * k) % 256 :=
    fun byte => by rw [← wordByte_toNat, byte, wordByte_toNat]
  simp only [wordBytes, List.cons.injEq, and_true] at same
  obtain ⟨byte0, byte1, byte2, byte3⟩ := same
  have := digit byte0
  have := digit byte1
  have := digit byte2
  have := digit byte3
  have := v.isLt
  have := v'.isLt
  exact BitVec.eq_of_toNat_eq (by omega)

theorem accWords_injective : Function.Injective accWords := by
  intro h h' same
  simp only [accWords, List.cons.injEq, and_true] at same
  obtain ⟨a, b, c, d⟩ := same
  refine Vector.ext fun i hi => ?_
  interval_cases i
  · exact a
  · exact b
  · exact c
  · exact d

/-- Settles O30: characters, bytes and words are each determined by the string they are concatenated to. -/
theorem hexDigestDeterminesWords : Obligations.HexDigestDeterminesWords := by
  intro h h' same
  have bytes : digestBytes h = digestBytes h' := flatMap_injective 1 (fun _ => rfl) hexByte_injective same
  exact accWords_injective (flatMap_injective 3 (fun _ => rfl) wordBytes_injective bytes)

end Sys2Proof.Machine
end

section
/-!
Proofs about the control commands (`43_control.md`). `START` and the reads are accepted in every phase, and their words are
legal with `RSV` and `ARG` 0 alone (`illegal_of_noOperand`); the seeding commands are turned away by the parameter, then by
the phase, and otherwise write one half of `L`.
-/

namespace Sys2Proof.Machine

/-! ### Commands without an operand (rules R61, R63) -/

/-- The opcodes of `START` and of the reads: a word with any other bit has it in `RSV` or in `ARG`. -/
theorem illegal_of_noOperand (cfg : Config) {w : Cmd} {op : Nat} (hop : w.toNat / 2 ^ 56 = op)
    (noOperand : op = 1 ∨ op = 6 ∨ op = 7 ∨ op = 8) (other : w.toNat ≠ op * 2 ^ 56) : illegal cfg w = true := by
  have bits : w.toNat / 2 ^ 32 % 2 ^ 24 ≠ 0 ∨ w.toNat % 2 ^ 32 ≠ 0 := by omega
  refine illegal_of_illegalFields ?_
  rcases bits with rsv | arg
  · exact .inr (.inr (.inl rsv))
  · exact .inr (.inr (.inr (.inl ⟨hop ▸ noOperand, arg⟩)))

/-! ### Length seeding (rules R141, R142) -/

theorem wellFormed_of_isSeed {i : Instr} (seed : isSeed i = true) (cfg : Config) :
    wellFormed cfg i = cfg.seedEnabled := by
  cases i with
  | seedLenLo v => rfl
  | seedLenHi v => rfl
  | _ => cases seed

/-- Settles O13: in `ACTIVE` the effect is `withLenLo` or `withLenHi`, and the parameter and the other two phases turn both
commands away alike. -/
theorem seedingWritesOneHalfOfLength : Obligations.SeedingWritesOneHalfOfLength := by
  refine ⟨fun s v active enabled => ⟨?_, ?_⟩, fun s v i hi => ?_,
    fun cfg w _ rsv => illegal_of_illegalFields (.inr (.inr (.inl rsv)))⟩
  · exact ⟨_, exec_accepted enabled fun _ => active, withLenLo_toNat s.len v, rfl⟩
  · exact ⟨_, exec_accepted enabled fun _ => active, withLenHi_toNat s.len v, rfl⟩
  · have seed : isSeed i = true := by rcases hi with rfl | rfl <;> rfl
    have wf := wellFormed_of_isSeed seed s.cfg
    obtain ⟨needs, _, _⟩ := effect_session_of_isSeed seed s
    refine ⟨fun disabled => ?_, fun enabled done => ?_, fun enabled fault => ?_⟩
    · rw [exec_illegal (wf.trans disabled), raise_eq]
    · rw [exec_done (wf.trans enabled) needs done, raise_eq, done]; rfl
    · exact exec_fault (wf.trans enabled) needs fault

/-! ### `START` (rules R140, R166) -/

/-- An accepted command other than `START` keeps the phase or ends the session. -/
theorem start_or_active_of_effect_active {i : Instr} {s : State} (h : (effect i s).phase = .active) :
    i = .start ∨ s.phase = .active := by
  obtain ⟨phase, _⟩ := effect_phase i s
  rw [phase] at h
  cases i with
  | start => exact .inl rfl
  | finalize raw => cases h
  | _ => exact .inr h

/-- Settles O12: `effect .start` gives the values of a new session, and a command turned away ends in `FAULT`. -/
theorem startOpensSession : Obligations.StartOpensSession := by
  refine ⟨fun s => ⟨?_, fun w op => ?_⟩, fun s t i h closed opened => ?_⟩
  · exact ⟨effect .start s, rfl, rfl, rfl, rfl, rfl, rfl, rfl, rfl, rfl, rfl, rfl, rfl, rfl,
      statusWord_powerOn s.cfg s.buf, _, rfl, effect_sameRegisters_again (.inl rfl) s⟩
  · split
    · next word => exact decode_of_fields op (by omega) (by rw [word]; rfl)
    · next other => exact illegal_of_noOperand s.cfg op (by decide) other
  · rcases exec_fault_or_accepted h with fault | ⟨_, _, rfl⟩
    · exact absurd (fault.symm.trans opened) nofun
    · exact (start_or_active_of_effect_active opened).resolve_right closed

/-! ### Length reads (rules R144, R145) -/

/-- Settles O15: the reads answer `lenLo` and `lenHi`, and each opcode has one legal word. -/
theorem readLengthReturnsHalves : Obligations.ReadLengthReturnsHalves := by
  refine fun s => ⟨⟨lenLo s.len, lenHi s.len, rfl, rfl, lenLo_toNat s.len, lenHi_toNat s.len⟩, fun w op => ?_⟩
  split_ifs with lo hi
  · exact decode_of_fields (by rw [lo]; rfl) (by omega) (by rw [lo]; rfl)
  · exact decode_of_fields (by rw [hi]; rfl) (by omega) (by rw [hi]; rfl)
  · rcases op with op | op
    · exact illegal_of_noOperand s.cfg op (by decide) lo
    · exact illegal_of_noOperand s.cfg op (by decide) hi

end Sys2Proof.Machine
end

section
/-!
Proofs about faults (`60_exceptions.md`). A command that is answered `FAULT` is one `raise`, and its code comes from the word
alone (`eq_raise_of_answered_fault`). Outside `ACTIVE` a word other than `START` is answered by a `raise` or by a read
(`perform_of_closed`), so that it neither reopens a session nor, in `FAULT`, writes a register.
-/

namespace Sys2Proof.Machine

/-! ### Commands that are answered `FAULT` (rules R161 to R164) -/

theorem illegal_of_decode {cfg : Config} {w : Cmd} {i : Instr} (dec : decode w = .ok i) :
    illegal cfg w = !wellFormed cfg i := by
  simp only [illegal, dec]

/-- The code that rule R162 stores for the word when no fault is stored yet. -/
def faultCodeOf (cfg : Config) (w : Cmd) : FaultCode :=
  if illegal cfg w = true then .illegalCommand else .sequenceError

theorem faultCodeOf_illegal {cfg : Config} {w : Cmd} (h : illegal cfg w = true) : faultCodeOf cfg w = .illegalCommand :=
  if_pos h

theorem faultCodeOf_legal {cfg : Config} {w : Cmd} {i : Instr} (dec : decode w = .ok i) (wf : wellFormed cfg i = true) :
    faultCodeOf cfg w = .sequenceError := by
  simp [faultCodeOf, illegal_of_decode dec, wf]

theorem eq_raise_of_answered_fault {w : Cmd} {s t : State} (performed : perform w s = .next t)
    (answered : t.resps = s.resps ++ [⟨.fault, .empty⟩]) : t = raise (faultCodeOf s.cfg w) s := by
  rcases perform_cases performed with ⟨illegal, rfl⟩ | ⟨i, dec, wf, _, _, rfl⟩ | ⟨i, _, _, _, fault, rfl⟩ |
    ⟨i, _, _, _, rfl⟩
  · rw [faultCodeOf_illegal illegal]
  · rw [faultCodeOf_legal dec wf]
  · exact respondFault_eq_raise fault _
  · rw [effect_resps] at answered
    cases List.append_cancel_left answered

/-- Settles O35: in `FAULT` a session command is answered silently, a read is accepted, and an illegal word is raised, which in
`FAULT` is the silent answer. -/
theorem faultPhaseIsSticky : Obligations.FaultPhaseIsSticky := by
  refine ⟨fun s i fault wf needs => exec_fault wf needs fault, fun s i _ read => ?_, fun s w later fault hosts ill => ?_⟩
  · obtain ⟨v, answer⟩ := exec_read read s
    exact ⟨.words [v], answer s.resps⟩
  · have raised : perform w (setHosts [later] s) = .next (raise .illegalCommand (setHosts [later] s)) :=
      perform_illegal ill
    rw [step_of_command hosts, raised, ← respondFault_eq_raise (s := setHosts [later] s) fault]
    rfl

/-- Settles O36: what `raise` does to the state with the word taken from its host. -/
theorem faultsArePrecise : Obligations.FaultsArePrecise := by
  intro s t w later hosts stepped answered
  rw [step_of_command hosts] at stepped
  rw [eq_raise_of_answered_fault stepped answered, raise_eq]
  rfl

/-! ### Outside `ACTIVE` (rules R163, R166) -/

theorem encode_start : encode .start = 0x0100000000000000 := by decide

/-- A command that needs no open session is `START` or a read, and a read changes nothing but the responses. -/
theorem eq_start_or_effect_eq_respondOk {i : Instr} (free : needsSession i = false) (s : State) :
    i = .start ∨ effect i s = respondOk (answer i s) s := by
  cases i with
  | start => exact .inl rfl
  | readStatus => exact .inr rfl
  | readLenLo => exact .inr rfl
  | readLenHi => exact .inr rfl
  | _ => cases free

theorem perform_of_closed {w : Cmd} {s t : State} (performed : perform w s = .next t) (closed : s.phase ≠ .active)
    (other : w ≠ 0x0100000000000000) : (∃ c, t = raise c s) ∨ ∃ d, t = respondOk d s := by
  rcases perform_outcomes performed with ⟨c, _, raised, _⟩ | ⟨i, dec, session, rfl⟩
  · exact .inl ⟨c, raised⟩
  have free : needsSession i = false := Bool.eq_false_iff.2 fun needs => closed (session needs)
  rcases eq_start_or_effect_eq_respondOk free s with rfl | read
  · exact absurd ((encode_eq_of_decode dec).symm.trans encode_start) other
  · exact .inr ⟨_, read⟩

theorem phase_of_closed {w : Cmd} {s t : State} (performed : perform w s = .next t) (closed : s.phase ≠ .active)
    (other : w ≠ 0x0100000000000000) : t.phase = .fault ∨ t.phase = s.phase := by
  rcases perform_of_closed performed closed other with ⟨c, rfl⟩ | ⟨d, rfl⟩
  · exact .inl (raise_phase c s)
  · exact .inr rfl

/-- Settles O37: `START` is accepted in every phase, `phase_of_closed` leaves no other way back, and a fault in `FAULT` keeps the
code by `raise_fcode`. -/
theorem onlyStartReopens : Obligations.OnlyStartReopens := by
  refine ⟨fun s => ⟨effect .start s, rfl, rfl, rfl⟩, fun s t w later hosts stepped reopened => ?_,
    fun s t w later fault hosts stepped answered => ?_⟩
  · rw [step_of_command hosts] at stepped
    by_contra other
    rcases reopened with ⟨fault, left⟩ | ⟨done, opened⟩
    · have phase := phase_of_closed stepped (fault ▸ nofun) other
      exact phase.elim left fun same => left (same.trans fault)
    · have phase := phase_of_closed stepped (done ▸ nofun) other
      rw [opened, setHosts_phase, done] at phase
      exact phase.elim nofun nofun
  · rw [step_of_command hosts] at stepped
    rw [eq_raise_of_answered_fault stepped answered]
    exact ⟨raise_phase _ _, (raise_fcode _ _).trans (if_pos fault)⟩

/-! ### Runs in `FAULT` (rules R162, R163, R166) -/

theorem sameRegisters_trans {s t u : State} (first : SameRegisters s t) (second : SameRegisters t u) : SameRegisters s u := by
  obtain ⟨acc, buf, n, len, phase, fcode⟩ := first
  obtain ⟨acc', buf', n', len', phase', fcode'⟩ := second
  exact ⟨acc'.trans acc, buf'.trans buf, n'.trans n, len'.trans len, phase'.trans phase, fcode'.trans fcode⟩

theorem perform_sameRegisters_of_fault {w : Cmd} {s t : State} (performed : perform w s = .next t)
    (fault : s.phase = .fault) (other : w ≠ 0x0100000000000000) : SameRegisters s t := by
  rcases perform_of_closed performed (fault ▸ nofun) other with ⟨c, rfl⟩ | ⟨d, rfl⟩
  · rw [← respondFault_eq_raise fault]
    exact ⟨rfl, rfl, rfl, rfl, rfl, rfl⟩
  · exact ⟨rfl, rfl, rfl, rfl, rfl, rfl⟩

/-- Settles O38, by induction on the words: each leaves the registers, and with them the phase `FAULT`. -/
theorem firstFaultCodeIsKept : Obligations.FirstFaultCodeIsKept := by
  intro s ws fault others
  induction ws generalizing s with
  | nil => exact ⟨_, issueRun_nil s, rfl, rfl, rfl, rfl, rfl, rfl⟩
  | cons w ws ih =>
    obtain ⟨other, rest⟩ := List.forall_mem_cons.1 others
    obtain ⟨t, _, performed, _⟩ := perform_answers w (setHosts [ws] s)
    have same : SameRegisters (setHosts [ws] s) t := perform_sameRegisters_of_fault performed fault other
    have ⟨_, _, _, _, phase, _⟩ := same
    obtain ⟨u, run, same'⟩ := ih t (phase.trans fault) rest
    exact ⟨u, (issueRun_cons performed).trans run, sameRegisters_trans same same'⟩

end Sys2Proof.Machine
end

section
/-!
Proofs about power-on reset (`70_reset_and_hazards.md`). The occupancy `n` is 0 at power-on, so every byte of the draw is stale
(`powerOn_sameButStale`), and stale bytes are never observed (O47).
-/

namespace Sys2Proof.Machine

/-! ### The power-on draw of the buffer (rules R33, R180) -/

/-- `START` in a core fresh from power-on writes what is there. -/
theorem effect_start_powerOn_sameRegisters (cfg : Config) (draw : Block) :
    SameRegisters (effect .start (State.powerOn cfg draw)) (State.powerOn cfg draw) :=
  ⟨rfl, rfl, rfl, rfl, rfl, rfl⟩

theorem powerOn_sameButStale (cfg : Config) (draw draw' : Block) :
    SameButStale (State.powerOn cfg draw) (State.powerOn cfg draw') :=
  ⟨rfl, fun _ below => absurd below (Nat.not_lt_zero _)⟩

/-- O47 for a run of words, which always completes. -/
theorem issueRun_sameButStale (ws : List Cmd) {s s' : State} (h : SameButStale s s') :
    ∃ t t', issueRun ws s = .next t ∧ issueRun ws s' = .next t' ∧ SameButStale t t' := by
  obtain ⟨t, run, _⟩ := issueRun_next ws s
  obtain ⟨t', run', _⟩ := issueRun_next ws s'
  have same := staleBytesAreNeverObserved ws.length (issueAll ws s) (issueAll ws s') (setHosts_sameButStale [ws] h)
  unfold issueRun at run run'
  rw [run, run'] at same
  exact ⟨t, t', run, run', same⟩

/-- Settles O48: two power-ons differ in stale bytes alone, and so do the states that the words leave. -/
theorem powerOnDrawIsNeverObserved : Obligations.PowerOnDrawIsNeverObserved := by
  intro cfg draw draw' ws
  obtain ⟨t, t', run, run', same⟩ := issueRun_sameButStale ws (powerOn_sameButStale cfg draw draw')
  refine ⟨⟨_, rfl, effect_start_powerOn_sameRegisters cfg draw⟩, t, t', run, run', ?_⟩
  rw [eq_setBuf_of_sameButStale same]
  exact ⟨rfl, rfl, rfl, rfl, rfl, rfl⟩

end Sys2Proof.Machine
end

section
/-!
Proofs about whole blocks compressed from the initialization vector (`95_test_vectors.md`, V6). Each splits as rule R88 does:
the working registers that the 64 steps leave, which the kernel evaluates, and the feed-forward.
-/

namespace Sys2Proof.Machine

/-- Settles O26, by the working registers after step 63 of each compression, fed forward. -/
theorem compressSpecVectors : Obligations.CompressSpecVectors := by
  unfold Obligations.CompressSpecVectors
  have zeros : compressSteps (bufRead (Vector.replicate 64 0x00)) (loadWorking iv) 64 =
      ⟨0x9BD9FAAB, 0x7ED7E347, 0x86F08AB9, 0x63FF231B⟩ := by decide +kernel
  have counting : compressSteps (bufRead (Vector.ofFn fun i => BitVec.ofNat 8 i.val)) (loadWorking iv) 64 =
      ⟨0x29FFB6C9, 0xE9343940, 0xDA417E3A, 0x522DA0A8⟩ := by decide +kernel
  rw [compress, compress, zeros, counting]
  exact ⟨by decide, by decide⟩

end Sys2Proof.Machine
end
